-- ==== Sys2Proof/Word.lean ====
section
/-! DEFINITION. The byte, the 16-bit word and the register index of RISA (00_scope.md R5, R7). -/

namespace Sys2Proof

/-- A byte of memory or of an instruction: 8 bits (R5). -/
abbrev Byte := BitVec 8

/-- A word: 16 bits. Registers, the program counter, addresses and immediates are words (R5). -/
abbrev Word := BitVec 16

/-- A register index: 0 for R0 up to 15 for R15 (10_state.md R10). -/
abbrev RegIx := Fin 16

end Sys2Proof
end

