-- ==== Sys2Proof/Syntax.lean ====
section
/-! DEFINITION. The eleven instructions of RISA (00_scope.md R2, 30_encoding.md R56), one constructor per
row of spec/opcode_table.json, with the operands in the order of the instruction's bytes (R62). -/

namespace Sys2Proof

/-- An instruction with its operands. A register operand is an index from 0 to 15, so that a register
byte above 15, which names no register (R54), has no instruction term at all. -/
inductive Instr where
  /-- MOVI, Move Immediate to Register (R71). -/
  | movi (reg : RegIx) (imm : Word)
  /-- MOV, Move Register to Register (R72). -/
  | mov (dest src : RegIx)
  /-- LOAD, Load to Register (R73). -/
  | load (reg : RegIx) (address : Word)
  /-- STORE, Store from Register (R74): the address comes first. -/
  | store (address : Word) (reg : RegIx)
  /-- ADD, Add Register to Register (R81). -/
  | add (dest src : RegIx)
  /-- SUB, Subtract Register from Register (R82). -/
  | sub (dest src : RegIx)
  /-- CMP, Compare Registers (R90). -/
  | cmp (regA regB : RegIx)
  /-- JMP, Unconditional Jump (R96). -/
  | jmp (address : Word)
  /-- JZ, Jump if Zero (R97). -/
  | jz (address : Word)
  /-- JNZ, Jump if Not Zero (R98). -/
  | jnz (address : Word)
  /-- HALT, Halt Execution (R105). -/
  | halt
deriving DecidableEq, Repr

end Sys2Proof
end

