-- ==== Sys2Proof/WellFormed.lean ====
section
/-! DEFINITION. Which operand values 30_encoding.md calls legal (R54, R55).

A register operand is legal by its type (`RegIx` holds 0 to 15 only); every immediate and every jump
target is legal; a LOAD or STORE address is legal unless it is 0xFFFF. An ill-formed instruction can still
be encoded and decoded: it is the one whose execution raises DataWrap (20_memory.md R34). -/

namespace Sys2Proof

/-- The address of a LOAD or STORE is legal (R55): "All values of a LOAD or STORE `address` are legal
except 0xFFFF". -/
def wordAddressLegal (address : Word) : Bool := address != 0xFFFF

/-- Every operand of the instruction has a legal value (R54, R55). -/
def WellFormed : Instr → Bool
  | .movi _ _ => true
  | .mov _ _ => true
  | .load _ address => wordAddressLegal address
  | .store address _ => wordAddressLegal address
  | .add _ _ => true
  | .sub _ _ => true
  | .cmp _ _ => true
  | .jmp _ => true
  | .jz _ => true
  | .jnz _ => true
  | .halt => true

end Sys2Proof
end

