-- ==== Sys2Proof/Decode.lean ====
section
/-! DEFINITION. The encoding of RISA (30_encoding.md): byte order of operands, formats, lengths, the
opcode map, the decoder (total on any bytes), the encoder, and the rows of spec/opcode_table.json. -/

namespace Sys2Proof

/-! ### Byte order (R30, R55) -/

/-- Two bytes, high byte first, as one word: `hi ++ lo = hi * 256 + lo` (R7, R55). -/
def joinBytes (hi lo : Byte) : Word := BitVec.ofNat 16 (hi.toNat * 256 + lo.toNat)

/-- Bits 15..8 of a word. -/
def highByte (w : Word) : Byte := BitVec.ofNat 8 (w.toNat / 256)

/-- Bits 7..0 of a word. -/
def lowByte (w : Word) : Byte := BitVec.ofNat 8 w.toNat

/-- Bytes at increasing addresses, read as one big-endian number (R31). -/
def bigEndian (bytes : List Byte) : Nat := bytes.foldl (fun acc b => acc * 256 + b.toNat) 0

/-! ### Formats, opcodes and lengths (R51, R52, R56) -/

/-- The six formats of R52. -/
inductive Format where
  /-- opcode, register, immediate high, immediate low -/
  | RI
  /-- opcode, first register, second register -/
  | RR
  /-- opcode, register, address high, address low -/
  | RA
  /-- opcode, address high, address low, register -/
  | AR
  /-- opcode, address high, address low -/
  | A
  /-- opcode alone -/
  | N
deriving DecidableEq, Repr

/-- The length in bytes of an instruction of a format (R52). -/
def Format.length : Format → Nat
  | .RI => 4
  | .RR => 3
  | .RA => 4
  | .AR => 4
  | .A => 3
  | .N => 1

/-- The defined values of the opcode byte (R56). -/
inductive Opcode where
  | movi | mov | load | store | add | sub | cmp | jmp | jz | jnz | halt
deriving DecidableEq, Repr

/-- The opcode byte `b0` (R56). -/
def Opcode.byte : Opcode → Byte
  | .movi => 0x01
  | .mov => 0x02
  | .load => 0x03
  | .store => 0x04
  | .add => 0x05
  | .sub => 0x06
  | .cmp => 0x07
  | .jmp => 0x08
  | .jz => 0x09
  | .jnz => 0x0A
  | .halt => 0xFF

/-- The opcode that an opcode byte selects; none for 0x00 and 0x0B to 0xFE (R56, R58). -/
def opcodeOf (b0 : Byte) : Option Opcode :=
  match b0.toNat with
  | 0x01 => some .movi
  | 0x02 => some .mov
  | 0x03 => some .load
  | 0x04 => some .store
  | 0x05 => some .add
  | 0x06 => some .sub
  | 0x07 => some .cmp
  | 0x08 => some .jmp
  | 0x09 => some .jz
  | 0x0A => some .jnz
  | 0xFF => some .halt
  | _ => none

/-- The format of an opcode (R52, R56). -/
def Opcode.format : Opcode → Format
  | .movi => .RI
  | .mov => .RR
  | .load => .RA
  | .store => .AR
  | .add => .RR
  | .sub => .RR
  | .cmp => .RR
  | .jmp => .A
  | .jz => .A
  | .jnz => .A
  | .halt => .N

/-- `len` for an opcode (R51). -/
def Opcode.length (op : Opcode) : Nat := op.format.length

/-- `len` as a function of the opcode byte alone (R51); none where the byte selects no instruction. -/
def opcodeLength (b0 : Byte) : Option Nat := (opcodeOf b0).map Opcode.length

/-- The opcode of an instruction. -/
def Instr.opcode : Instr → Opcode
  | .movi _ _ => .movi
  | .mov _ _ => .mov
  | .load _ _ => .load
  | .store _ _ => .store
  | .add _ _ => .add
  | .sub _ _ => .sub
  | .cmp _ _ => .cmp
  | .jmp _ => .jmp
  | .jz _ => .jz
  | .jnz _ => .jnz
  | .halt => .halt

/-! ### The decoder (R57) -/

/-- What a list of bytes decodes to: an instruction and the bytes after it, or the name of why not. -/
inductive Decoded where
  /-- An instruction, and the bytes that follow it. -/
  | ok (i : Instr) (rest : List Byte)
  /-- The first byte selects no instruction (R58). -/
  | illegalOpcode (b0 : Byte)
  /-- Fewer bytes than the instruction has (at a pc near the top of memory: FetchWrap, R35). -/
  | truncated
  /-- A register byte has a value 16 to 255 (R54, R59). -/
  | invalidRegister
deriving DecidableEq, Repr

/-- The register a register byte names: the whole byte is the index, 0 to 15 (R54); the values 16 to 255
name none. -/
def registerOfByte (b : Byte) : Option RegIx :=
  if h : b.toNat < 16 then some ⟨b.toNat, h⟩ else none

/-- Formats RI and RA, which have the same byte layout (R52): register byte, high byte, low byte. -/
def decodeRegWord (mk : RegIx → Word → Instr) : List Byte → Decoded
  | b1 :: b2 :: b3 :: rest =>
    match registerOfByte b1 with
    | some reg => .ok (mk reg (joinBytes b2 b3)) rest
    | none => .invalidRegister
  | _ => .truncated

/-- Format AR (R52): high byte, low byte, register byte. -/
def decodeWordReg (mk : Word → RegIx → Instr) : List Byte → Decoded
  | b1 :: b2 :: b3 :: rest =>
    match registerOfByte b3 with
    | some reg => .ok (mk (joinBytes b1 b2) reg) rest
    | none => .invalidRegister
  | _ => .truncated

/-- Format RR (R52): first register byte, second register byte. -/
def decodeRegReg (mk : RegIx → RegIx → Instr) : List Byte → Decoded
  | b1 :: b2 :: rest =>
    match registerOfByte b1, registerOfByte b2 with
    | some ra, some rb => .ok (mk ra rb) rest
    | _, _ => .invalidRegister
  | _ => .truncated

/-- Format A (R52): high byte, low byte. -/
def decodeWord (mk : Word → Instr) : List Byte → Decoded
  | b1 :: b2 :: rest => .ok (mk (joinBytes b1 b2)) rest
  | _ => .truncated

/-- The operand bytes of an opcode (R57). -/
def decodeOperands (op : Opcode) (bytes : List Byte) : Decoded :=
  match op with
  | .movi => decodeRegWord .movi bytes
  | .mov => decodeRegReg .mov bytes
  | .load => decodeRegWord .load bytes
  | .store => decodeWordReg .store bytes
  | .add => decodeRegReg .add bytes
  | .sub => decodeRegReg .sub bytes
  | .cmp => decodeRegReg .cmp bytes
  | .jmp => decodeWord .jmp bytes
  | .jz => decodeWord .jz bytes
  | .jnz => decodeWord .jnz bytes
  | .halt => .ok .halt bytes

/-- The decoder, total on any bytes, with the checks in the order of R57 and 60_exceptions.md R117: the opcode
byte, then enough operand bytes, then the register bytes. -/
def decode : List Byte → Decoded
  | [] => .truncated
  | b0 :: rest =>
    match opcodeOf b0 with
    | some op => decodeOperands op rest
    | none => .illegalOpcode b0

/-! ### The encoder (R52, R53) -/

/-- The register byte of a register: its index, with the high four bits zero (R53, R54). -/
def registerByte (r : RegIx) : Byte := BitVec.ofNat 8 r.val

/-- The bytes of an instruction, in increasing address order (R52). -/
def encode : Instr → List Byte
  | .movi reg imm => [0x01, registerByte reg, highByte imm, lowByte imm]
  | .mov dest src => [0x02, registerByte dest, registerByte src]
  | .load reg address => [0x03, registerByte reg, highByte address, lowByte address]
  | .store address reg => [0x04, highByte address, lowByte address, registerByte reg]
  | .add dest src => [0x05, registerByte dest, registerByte src]
  | .sub dest src => [0x06, registerByte dest, registerByte src]
  | .cmp regA regB => [0x07, registerByte regA, registerByte regB]
  | .jmp address => [0x08, highByte address, lowByte address]
  | .jz address => [0x09, highByte address, lowByte address]
  | .jnz address => [0x0A, highByte address, lowByte address]
  | .halt => [0xFF]

/-! ### The opcode table (R64) -/

/-- The bytes of the `n`-byte instruction whose big-endian number is `w`: byte `b0` is the most significant
(R53). -/
def numberBytes (w : Nat) : Nat → List Byte
  | 0 => []
  | n + 1 => BitVec.ofNat 8 (w / 256 ^ n) :: numberBytes w n

/-- The length in bytes of the longest instruction (R51). -/
def maxLength : Nat := 4

/-- The instruction bytes the table's number `w` of `nbits` bits stands for, followed by zero bytes up to the
longest instruction. The table numbers the bits of the whole instruction as one big-endian number, bit 0 the
least significant bit of the LAST byte (R53, R64). DEDUCED (log entry 10). -/
def tableWordBytes (nbits w : Nat) : List Byte :=
  numberBytes w (nbits / 8) ++ List.replicate (maxLength - nbits / 8) 0

/-- The instruction the decoder reads from a table word. -/
def decodeTableWord (nbits w : Nat) : Option Instr :=
  match decode (tableWordBytes nbits w) with
  | .ok i _ => some i
  | _ => none

/-- The `match` of an opcode's row: the opcode byte at the top, every other bit zero. -/
def rowMatch : Opcode → Nat
  | .movi => 0x01000000
  | .mov => 0x020000
  | .load => 0x03000000
  | .store => 0x04000000
  | .add => 0x050000
  | .sub => 0x060000
  | .cmp => 0x070000
  | .jmp => 0x080000
  | .jz => 0x090000
  | .jnz => 0x0A0000
  | .halt => 0xFF

/-- The `mask` of an opcode's row: the opcode byte and the must-be-zero high nibble of each register byte. -/
def rowMask : Opcode → Nat
  | .movi => 0xFFF00000
  | .mov => 0xFFF0F0
  | .load => 0xFFF00000
  | .store => 0xFF0000F0
  | .add => 0xFFF0F0
  | .sub => 0xFFF0F0
  | .cmp => 0xFFF0F0
  | .jmp => 0xFF0000
  | .jz => 0xFF0000
  | .jnz => 0xFF0000
  | .halt => 0xFF

end Sys2Proof
end

