-- ==== Sys2Proof/Config.lean ====
section
/-! DEFINITION. What is fixed for every RISA machine (00_scope.md R5) and the free values the spec
leaves open. -/

namespace Sys2Proof

/-- The memory size in bytes: addresses run from 0 to `memSize - 1` (R5, 10_state.md R21). -/
def Config.memSize : Nat := 65536

/-- What a byte of memory that the model's list does not name reads as. DESIGN CHOICE (log entry 7):
the spec gives memory no launch contents (D13). -/
def Config.unlistedByte : Byte := 0

/-- The free values, numbered. Nothing constrains them, and nothing in Lean can evaluate one.
HALT draws one for `pc`, which 44_system.md R105 leaves unspecified (D9). DESIGN CHOICE (log
entry 3). -/
opaque Config.freeWord : Nat → Word

end Sys2Proof
end

