-- ==== Sys2Proof/Machine/State.lean ====
section
/-! DEFINITION. The state of RISA (10_state.md), its faults (60_exceptions.md R110), and the state the model names
as its reset state. -/

namespace Sys2Proof.Machine

/-- The five kinds of fault (R110), in the order of their codes and of their priority (R117). -/
inductive FaultKind where
  /-- Code 1: the opcode byte is 0x00 or 0x0B to 0xFE. -/
  | illegalOpcode
  /-- Code 2: an operand byte would lie above 0xFFFF. -/
  | fetchWrap
  /-- Code 3: a register byte has a value 16 to 255. -/
  | invalidRegister
  /-- Code 4: the address operand of a LOAD or STORE is 0xFFFF. -/
  | dataWrap
  /-- Code 5: the next sequential address does not fit in the 16-bit pc. -/
  | pcWrap
deriving DecidableEq, Repr

/-- The spec's own code number of a fault kind (R110). -/
def FaultKind.code : FaultKind → Nat
  | .illegalOpcode => 1
  | .fetchWrap => 2
  | .invalidRegister => 3
  | .dataWrap => 4
  | .pcWrap => 5

/-- The run status (10_state.md R18): `Running`, `Halted` or `Faulted(kind)`. -/
inductive RunStatus where
  | running
  | halted
  | faulted (kind : FaultKind)
deriving DecidableEq, Repr

/-- Why a step stops. The first five are the spec's faults with the information it records (R110); the last two
say that a stopped machine takes no step (R18). All are safe: the model stops, and no claim about what a real
RISA would do instead can be proved. -/
inductive Fault where
  /-- Raised by fetching (R58): the opcode byte at `pc` selects no instruction. Safe. -/
  | illegalOpcode (pc : Word) (b0 : Byte)
  /-- Raised by fetching (20_memory.md R35): the instruction at `pc` does not fit below 0x10000. Safe. -/
  | fetchWrap (pc : Word)
  /-- Raised by decoding (30_encoding.md R59): a register byte of the instruction at `pc` exceeds 15. Safe. -/
  | invalidRegister (pc : Word)
  /-- Raised by LOAD and STORE (20_memory.md R34): the word at `address` would pass the top of memory. Safe. -/
  | dataWrap (address : Word)
  /-- Raised by the sequential advance of every instruction but HALT, JMP and the taken jumps (10_state.md R15). Safe. -/
  | pcWrap (pc : Word)
  /-- Raised by stepping a halted machine, which takes no step (R18). Safe. -/
  | machineHalted
  /-- Raised by stepping a machine that has faulted, which takes no step (R18). Safe. -/
  | machineFaulted (kind : FaultKind)
deriving DecidableEq, Repr

/-- Why the model has no meaning to give. -/
inductive Refusal where
  /-- Raised by `exec` for an instruction whose meaning is not written yet. Safe. No arm answers it. -/
  | notModelled (mnemonic : String)
deriving DecidableEq, Repr

/-- Memory: the bytes that differ from `Config.unlistedByte`, by strictly rising address. -/
abbrev Memory := List Host.Cell

/-- The architectural state (10_state.md section 1), and one field of the model's own. -/
structure State where
  /-- The general registers R0 to R15 (R10). -/
  regs : Vector Word 16
  /-- The program counter (R13): between steps, the address of the next instruction's opcode byte (R14). -/
  pc : Word
  /-- The Zero flag (R16). -/
  z : Bool
  /-- The Carry flag (R16). -/
  c : Bool
  /-- Memory, 0x0000 to 0xFFFF, code and data (R21). -/
  mem : Memory
  /-- The run status (R18). -/
  status : RunStatus
  /-- The model's own: how many free values have been drawn (log entry 3). -/
  draws : Nat
deriving DecidableEq, Repr

/-- The reset state the model names: one of the launch states 10_state.md R23 allows. The spec gives `status`;
every other value is a DESIGN CHOICE (log entries 4 to 7). -/
def State.reset : State :=
  { regs := Vector.replicate 16 0
    pc := 0
    z := false
    c := false
    mem := []
    status := .running
    draws := 0 }

end Sys2Proof.Machine
end

