-- ==== Sys2Proof/Machine/Ops.lean ====
section
/-! DEFINITION. The named operations over memory, registers, the program counter and the run status. Every
instruction's meaning is written over these. -/

namespace Sys2Proof.Machine

/-- The outcome of an instruction or a step. -/
abbrev Result := Host.Outcome State Fault Refusal

/-! ### Memory (20_memory.md) -/

/-- The byte at an address (R21). -/
def Memory.read : Memory → Nat → Byte
  | [], _ => Config.unlistedByte
  | (b, w) :: rest, a => if b = a then w else Memory.read rest a

/-- Memory with the entry of an address taken out. -/
def Memory.clear (m : Memory) (a : Nat) : Memory := m.filter (fun cell => cell.1 != a)

/-- Memory with an entry put before the first larger address. -/
def Memory.insert (a : Nat) (v : Byte) : Memory → Memory
  | [] => [(a, v)]
  | (b, w) :: rest => if a < b then (a, v) :: (b, w) :: rest else (b, w) :: Memory.insert a v rest

/-- Memory after a byte is written. Writing what an unlisted address reads as removes the entry, so equal
memories are equal lists. -/
def Memory.write (m : Memory) (a : Nat) (v : Byte) : Memory :=
  if v = Config.unlistedByte then m.clear a else Memory.insert a v (m.clear a)

/-- The canonical form from an address on: strictly rising addresses inside the address space, no entry equal to
what an unlisted address reads as. -/
def Memory.wfFrom (lo : Nat) : Memory → Bool
  | [] => true
  | (b, w) :: rest =>
    decide (lo ≤ b) && decide (b < Config.memSize) && decide (w ≠ Config.unlistedByte)
      && Memory.wfFrom (b + 1) rest

/-- The canonical form of memory. -/
def Memory.wf (m : Memory) : Bool := m.wfFrom 0

/-- The `n` bytes from an address on, in increasing address order. -/
def Memory.bytes (m : Memory) : Nat → Nat → List Byte
  | _, 0 => []
  | a, n + 1 => m.read a :: Memory.bytes m (a + 1) n

/-- `MemRead(a, n)` (R31): `n` bytes from `a` on as one big-endian number. -/
def memRead (m : Memory) (a n : Nat) : Nat := bigEndian (m.bytes a n)

/-- `MemRead(a, 2)` as a word (R31). -/
def readWord (m : Memory) (a : Nat) : Word := BitVec.ofNat 16 (memRead m a 2)

/-- `MemWrite(a, 2, v)` (R32): the high byte at `a`, the low byte at `a + 1`. -/
def writeWord (m : Memory) (a : Nat) (v : Word) : Memory :=
  (m.write a (highByte v)).write (a + 1) (lowByte v)

/-- Memory with bytes placed from an address on; bytes past the top of the address space have no place and are
dropped. -/
def placeBytes (m : Memory) : Nat → List Byte → Memory
  | _, [] => m
  | a, b :: rest => placeBytes (if a < Config.memSize then m.write a b else m) (a + 1) rest

/-! ### State -/

/-- Read a general register (R10): no register is hard-wired, banked or aliased (R12). -/
def readReg (r : RegIx) (s : State) : Word := s.regs[r]

/-- Write a general register (R10, R12). -/
def writeReg (r : RegIx) (v : Word) (s : State) : State := { s with regs := s.regs.set r v }

/-- Write the Zero flag (R16). -/
def setZ (b : Bool) (s : State) : State := { s with z := b }

/-- Write the Carry flag (R16). -/
def setC (b : Bool) (s : State) : State := { s with c := b }

/-- Write a word of memory (R32). -/
def storeWord (a : Nat) (v : Word) (s : State) : State := { s with mem := writeWord s.mem a v }

/-- Set the program counter. -/
def setPc (t : Word) (s : State) : State := { s with pc := t }

/-- `raise Fault(kind, info)` (00_scope.md R8, 60_exceptions.md R110): the step stops the machine. Nothing is saved
and control goes nowhere (R119); since no claim may read the state of a faulted machine (R116), the outcome
shows the fault and no state. DESIGN CHOICE (log entry 1). -/
def raise (f : Fault) : Result := .fault f

/-- The kind of a fault of the spec; none for the two names of a machine that was stopped already. -/
def Fault.kind : Fault → Option FaultKind
  | .illegalOpcode _ _ => some .illegalOpcode
  | .fetchWrap _ => some .fetchWrap
  | .invalidRegister _ => some .invalidRegister
  | .dataWrap _ => some .dataWrap
  | .pcWrap _ => some .pcWrap
  | .machineHalted => none
  | .machineFaulted _ => none

/-- Taking a fault: `status <- Faulted(kind)` (R116). What else a faulted machine holds is unspecified and the
model keeps it as it was ("a model keeps whatever it likes there"). There is no return from a fault (R120). -/
def enterFaulted (kind : FaultKind) (s : State) : State := { s with status := .faulted kind }

/-- The sequential advance of the pc (10_state.md R15): by the instruction's length, with `PcWrap` where the next
address does not fit in 16 bits. -/
def advance (len : Nat) (s : State) : Result :=
  let npc := s.pc.toNat + len
  if npc > 0xFFFF then raise (.pcWrap s.pc) else .next (setPc (BitVec.ofNat 16 npc) s)

/-- A taken jump (43_control_flow.md R95): the pc becomes the target and does not advance. -/
def jumpTo (address : Word) (s : State) : Result := .next (setPc address s)

/-- A jump taken on a condition; not taken, the pc advances like any other instruction's (R95). -/
def jumpIf (taken : Bool) (len : Nat) (address : Word) (s : State) : Result :=
  if taken then jumpTo address s else advance len s

/-- Stopping normally (44_system.md R105): `status <- Halted`; the pc of a halted machine is a free value (D9, log
entry 3). -/
def haltMachine (s : State) : State :=
  { s with status := .halted, pc := Config.freeWord s.draws, draws := s.draws + 1 }

/-- Launch (70_reset_and_hazards.md R130, 10_state.md R23): memory is `IMAGE` (the bytes from address 0 on), the pc is
`ENTRY_PC`, the registers and flags hold any values the caller gives, and the machine runs. -/
def launch (image : List Byte) (entryPc : Word) (initR : Vector Word 16) (initZ initC : Bool) : State :=
  { State.reset with
    regs := initR
    pc := entryPc
    z := initZ
    c := initC
    mem := placeBytes [] 0 image
    status := .running }

end Sys2Proof.Machine
end

