-- ==== Sys2Proof/Machine/Flags.lean ====
section
/-! DEFINITION. The arithmetic laws and flag computations (41_arithmetic.md R80), in exact natural-number arithmetic narrowed
at the end. A flag is written with the truth of its condition (R16, D1). -/

namespace Sys2Proof.Machine

/-- ADD's 16-bit result: `(a + b) mod 65536` (R80). -/
def addWord (a b : Word) : Word := BitVec.ofNat 16 (a.toNat + b.toNat)

/-- ADD's carry: the sum is 65536 or more (R80, D2). -/
def addCarry (a b : Word) : Bool := decide (a.toNat + b.toNat ≥ 65536)

/-- The 16-bit result of SUB and the temporary of CMP: `(a - b) mod 65536` (R80). -/
def subWord (a b : Word) : Word := BitVec.ofNat 16 (a.toNat + 65536 - b.toNat)

/-- The borrow of SUB and CMP: `a < b`, unsigned (R80). -/
def subBorrow (a b : Word) : Bool := decide (a.toNat < b.toNat)

/-- Z of a 16-bit result: 1 when it is zero, else 0 (R80). -/
def zeroFlag (v : Word) : Bool := decide (v = 0)

end Sys2Proof.Machine
end

