-- ==== Sys2Proof/Machine/Operands.lean ====
section
/-! DEFINITION. The operand forms (30_encoding.md R54, R55; 40_data_movement.md R70): a register, a 16-bit immediate used as
it stands, and a 16-bit absolute address of a word of memory. -/

namespace Sys2Proof.Machine

/-- Where the word of a LOAD or STORE lies: the absolute address as it stands (R55, R70), or nowhere at 0xFFFF, whose
second byte would lie outside the address space (20_memory.md R34). -/
def effectiveAddress (address : Word) : Option Nat :=
  if address = 0xFFFF then none else some address.toNat

/-- Run `body` on the place of a memory operand; without one, raise `DataWrap` before any access (R34). -/
def withWordOperand (address : Word) (body : Nat → Result) : Result :=
  match effectiveAddress address with
  | some a => body a
  | none => raise (.dataWrap address)

/-- Write a result to its destination register and `Z` from it (R16: MOVI, MOV, LOAD, ADD and SUB all do both). -/
def writeResult (dest : RegIx) (v : Word) (s : State) : State :=
  setZ (zeroFlag v) (writeReg dest v s)

end Sys2Proof.Machine
end

