-- ==== Sys2Proof/Machine/Arithmetic.lean ====
section
/-! DEFINITION. Arithmetic: ADD, SUB (41_arithmetic.md). Both operands are read before the destination is written (R81). -/

namespace Sys2Proof.Machine

/-- ADD (R81): `R[dest] <- R[dest] + R[src]`, `Z` and `C` from the sum. -/
def execAdd (dest src : RegIx) (s : State) : Result :=
  let a := readReg dest s
  let b := readReg src s
  advance Opcode.add.length (setC (addCarry a b) (writeResult dest (addWord a b) s))

/-- SUB (R82): `R[dest] <- R[dest] - R[src]`, `Z` and `C` from the difference. -/
def execSub (dest src : RegIx) (s : State) : Result :=
  let a := readReg dest s
  let b := readReg src s
  advance Opcode.sub.length (setC (subBorrow a b) (writeResult dest (subWord a b) s))

end Sys2Proof.Machine
end

