-- ==== Sys2Proof/Machine/Comparison.lean ====
section
/-! DEFINITION. Comparison: CMP (42_comparison.md). -/

namespace Sys2Proof.Machine

/-- CMP (R90): the flags of `R[regA] - R[regB]`, the difference itself discarded. -/
def execCmp (regA regB : RegIx) (s : State) : Result :=
  let a := readReg regA s
  let b := readReg regB s
  advance Opcode.cmp.length (setC (subBorrow a b) (setZ (zeroFlag (subWord a b)) s))

end Sys2Proof.Machine
end

