-- ==== Sys2Proof/Machine/ControlFlow.lean ====
section
/-! DEFINITION. Control flow: JMP, JZ, JNZ (43_control_flow.md). Targets are absolute and every address is legal (R95). -/

namespace Sys2Proof.Machine

/-- JMP (R96): `pc <- address`. -/
def execJmp (address : Word) (s : State) : Result := jumpTo address s

/-- JZ (R97): taken when `Z` is 1. -/
def execJz (address : Word) (s : State) : Result := jumpIf s.z Opcode.jz.length address s

/-- JNZ (R98): taken when `Z` is 0. -/
def execJnz (address : Word) (s : State) : Result := jumpIf (!s.z) Opcode.jnz.length address s

end Sys2Proof.Machine
end

