-- ==== Sys2Proof/Machine/DataMovement.lean ====
section
/-! DEFINITION. Data movement: MOVI, MOV, LOAD, STORE (40_data_movement.md). None writes `C` (R70). -/

namespace Sys2Proof.Machine

/-- MOVI (R71): `R[reg] <- imm`, `Z` from the immediate. -/
def execMovi (reg : RegIx) (imm : Word) (s : State) : Result :=
  advance Opcode.movi.length (writeResult reg imm s)

/-- MOV (R72): `R[dest] <- R[src]`, `Z` from the copied value. -/
def execMov (dest src : RegIx) (s : State) : Result :=
  advance Opcode.mov.length (writeResult dest (readReg src s) s)

/-- LOAD (R73): `R[reg] <- MemRead(address, 2)`, `Z` from the loaded word; `DataWrap` at 0xFFFF. -/
def execLoad (reg : RegIx) (address : Word) (s : State) : Result :=
  withWordOperand address fun a =>
    advance Opcode.load.length (writeResult reg (readWord s.mem a) s)

/-- STORE (R74): `MemWrite(address, 2, R[reg])`; no flag changes; `DataWrap` at 0xFFFF. -/
def execStore (address : Word) (reg : RegIx) (s : State) : Result :=
  withWordOperand address fun a =>
    advance Opcode.store.length (storeWord a (readReg reg s) s)

end Sys2Proof.Machine
end

