-- ==== Sys2Proof/Machine/System.lean ====
section
/-! DEFINITION. System: HALT (44_system.md), the only instruction of its category (R106). -/

namespace Sys2Proof.Machine

/-- HALT (R105): `status <- Halted`; registers, flags and memory keep their values; `pc` is a free value. It does not
advance the pc, so it cannot raise `PcWrap`. -/
def execHalt (s : State) : Result := .next (haltMachine s)

end Sys2Proof.Machine
end

