-- ==== Sys2Proof/Machine/Dispatch.lean ====
section
/-! DEFINITION. The meaning of every instruction: one arm per constructor, each one direct call. -/

namespace Sys2Proof.Machine

/-- Execute the body of a decoded instruction (70_reset_and_hazards.md R140, points 2 and 3). -/
def exec (i : Instr) (s : State) : Host.Outcome State Fault Refusal :=
  match i with
  | .movi reg imm => Sys2Proof.Machine.execMovi reg imm s
  | .mov dest src => Sys2Proof.Machine.execMov dest src s
  | .load reg address => Sys2Proof.Machine.execLoad reg address s
  | .store address reg => Sys2Proof.Machine.execStore address reg s
  | .add dest src => Sys2Proof.Machine.execAdd dest src s
  | .sub dest src => Sys2Proof.Machine.execSub dest src s
  | .cmp regA regB => Sys2Proof.Machine.execCmp regA regB s
  | .jmp address => Sys2Proof.Machine.execJmp address s
  | .jz address => Sys2Proof.Machine.execJz address s
  | .jnz address => Sys2Proof.Machine.execJnz address s
  | .halt => Sys2Proof.Machine.execHalt s

end Sys2Proof.Machine
end

