-- ==== Sys2Proof/Machine/Fetch.lean ====
section
/-! DEFINITION. Fetch and decode at the pc (30_encoding.md R57; 70_reset_and_hazards.md R140, point 1), and placing an
instruction where the next fetch finds it. -/

namespace Sys2Proof.Machine

/-- What fetching gives: the instruction at the pc, or the fault that stops the step. -/
inductive Fetched where
  | instr (i : Instr)
  | stop (f : Fault)
deriving DecidableEq, Repr

/-- Fetch and decode at `pc` (R57): the opcode byte, its length, whether the instruction's bytes lie inside the address
space, the bytes themselves, and last the register bytes. It reads memory and changes nothing. -/
def fetchDecode (s : State) : Fetched :=
  let b0 := s.mem.read s.pc.toNat
  match opcodeLength b0 with
  | none => .stop (.illegalOpcode s.pc b0)
  | some len =>
    if s.pc.toNat + len - 1 > 0xFFFF then .stop (.fetchWrap s.pc)
    else
      match decode (s.mem.bytes s.pc.toNat len) with
      | .ok i _ => .instr i
      | .illegalOpcode b => .stop (.illegalOpcode s.pc b)
      | .truncated => .stop (.fetchWrap s.pc)
      | .invalidRegister => .stop (.invalidRegister s.pc)

/-- A running machine with the bytes of a table word in memory at its pc. -/
def placeTableWord (s : State) (nbits w : Nat) : State :=
  { s with mem := placeBytes s.mem s.pc.toNat (tableWordBytes nbits w), status := .running }

end Sys2Proof.Machine
end

