-- ==== Sys2Proof/Machine/Step.lean ====
section
/-! DEFINITION. One step of the machine (70_reset_and_hazards.md R140). -/

namespace Sys2Proof.Machine

/-- One step (R140): a running machine fetches, decodes and executes one instruction. A machine that has halted or
faulted takes no step (10_state.md R18), which is a stop of its own name (log entry 2). -/
def step (s : State) : Host.Outcome State Fault Refusal :=
  match s.status with
  | .running =>
    match fetchDecode s with
    | .instr i => exec i s
    | .stop f => raise f
  | .halted => .fault .machineHalted
  | .faulted kind => .fault (.machineFaulted kind)

/-- `s`, running, with the instruction of a table word (zero bytes after it, up to the longest instruction) stored at
its pc, where the next step fetches it. It stands for the host's load of `IMAGE` (log entry 9). -/
def State.withFetchWord (s : State) (nbits w : Nat) : State := placeTableWord s nbits w

end Sys2Proof.Machine
end

