-- ==== Sys2Proof/Safety.lean ====
section
/-! DEFINITION. The terms claims are stated in: the machine after an outcome, what the host observes of a halted
machine (70_reset_and_hazards.md R139), the fate of a run (R141), frames between two states, and which registers and
bytes an instruction names (10_state.md R11, 20_memory.md R36). -/

namespace Sys2Proof.Machine

/-! ### Runs and what is observed of them -/

/-- The machine a step leaves: the next state, or the faulted machine of 60_exceptions.md R116. A machine that takes no
step stays as it is (10_state.md R18). -/
def stateAfter (s : State) : Result → State
  | .next t => t
  | .fault f =>
    match f.kind with
    | some kind => enterFaulted kind s
    | none => s
  | .refused _ => s

/-- The machine after `n` steps; a stopped machine stays as it is. -/
def machineAfter : Nat → State → State
  | 0, s => s
  | n + 1, s => machineAfter n (stateAfter s (step s))

/-- What the host reads back of a completed run (R139): registers, flags and memory; not the pc. -/
structure Observation where
  regs : Vector Word 16
  z : Bool
  c : Bool
  mem : Memory
deriving DecidableEq, Repr

/-- How a run ends (R141): halted with an observation, or faulted with none. -/
inductive Fate where
  | halts (o : Observation)
  | faults (kind : FaultKind)
deriving DecidableEq, Repr

/-- What a state shows the host: an observation only when it has halted (R132, R139), the fault's kind when it has
faulted, nothing while it runs. -/
def fateShown (s : State) : Option Fate :=
  match s.status with
  | .running => none
  | .halted => some (.halts { regs := s.regs, z := s.z, c := s.c, mem := s.mem })
  | .faulted kind => some (.faults kind)

/-- The fate of the run from a state, if it comes within `n` steps. -/
def fateWithin (n : Nat) (s : State) : Option Fate := fateShown (machineAfter n s)

/-! ### Frames -/

/-- Every general register holds what it held. -/
def SameRegs (s t : State) : Prop := ∀ r, readReg r t = readReg r s

/-- Every general register but one holds what it held. -/
def SameRegsExcept (dest : RegIx) (s t : State) : Prop := ∀ r, r ≠ dest → readReg r t = readReg r s

/-- Every byte of memory reads as it did. -/
def SameMemory (s t : State) : Prop := ∀ a, t.mem.read a = s.mem.read a

/-- Every byte of memory outside the word at an address reads as it did. -/
def SameMemoryOutside (w : Nat) (s t : State) : Prop :=
  ∀ a, a ≠ w → a ≠ w + 1 → t.mem.read a = s.mem.read a

/-- Both flags hold what they held. -/
def SameFlags (s t : State) : Prop := t.z = s.z ∧ t.c = s.c

/-- The run status is unchanged, and no free value was drawn. -/
def SameControl (s t : State) : Prop := t.status = s.status ∧ t.draws = s.draws

/-! ### What an instruction names -/

/-- The registers an instruction reads (10_state.md R11). -/
def regsRead : Instr → List RegIx
  | .movi _ _ => []
  | .mov _ src => [src]
  | .load _ _ => []
  | .store _ reg => [reg]
  | .add dest src => [dest, src]
  | .sub dest src => [dest, src]
  | .cmp regA regB => [regA, regB]
  | .jmp _ => []
  | .jz _ => []
  | .jnz _ => []
  | .halt => []

/-- The registers an instruction writes (10_state.md R11). -/
def regsWritten : Instr → List RegIx
  | .movi reg _ => [reg]
  | .mov dest _ => [dest]
  | .load reg _ => [reg]
  | .store _ _ => []
  | .add dest _ => [dest]
  | .sub dest _ => [dest]
  | .cmp _ _ => []
  | .jmp _ => []
  | .jz _ => []
  | .jnz _ => []
  | .halt => []

/-- Whether an instruction writes `Z` (10_state.md R16). -/
def writesZ : Instr → Bool
  | .movi _ _ => true
  | .mov _ _ => true
  | .load _ _ => true
  | .store _ _ => false
  | .add _ _ => true
  | .sub _ _ => true
  | .cmp _ _ => true
  | .jmp _ => false
  | .jz _ => false
  | .jnz _ => false
  | .halt => false

/-- Whether an instruction writes `C` (10_state.md R16). -/
def writesC : Instr → Bool
  | .movi _ _ => false
  | .mov _ _ => false
  | .load _ _ => false
  | .store _ _ => false
  | .add _ _ => true
  | .sub _ _ => true
  | .cmp _ _ => true
  | .jmp _ => false
  | .jz _ => false
  | .jnz _ => false
  | .halt => false

/-- The address of the word an instruction stores to (20_memory.md R36): STORE's, none otherwise. -/
def storedWord : Instr → Option Nat
  | .movi _ _ => none
  | .mov _ _ => none
  | .load _ _ => none
  | .store address _ => effectiveAddress address
  | .add _ _ => none
  | .sub _ _ => none
  | .cmp _ _ => none
  | .jmp _ => none
  | .jz _ => none
  | .jnz _ => none
  | .halt => none

/-- The address the pc is set to by a jump the flags of `s` take; none for an instruction that advances (10_state.md R15). -/
def jumpTarget (i : Instr) (s : State) : Option Word :=
  match i with
  | .movi _ _ => none
  | .mov _ _ => none
  | .load _ _ => none
  | .store _ _ => none
  | .add _ _ => none
  | .sub _ _ => none
  | .cmp _ _ => none
  | .jmp address => some address
  | .jz address => if s.z then some address else none
  | .jnz address => if s.z then none else some address
  | .halt => none

end Sys2Proof.Machine
end

