-- ==== Sys2Proof/Certificates/Slice0/Obligations.lean ====
section
/-! DEFINITION. The statements for the provers. Each docstring names the rule of spec/ it formalises, or, for a derived
statement, the sections it rests on and the decisions (D<n> of 92_eei_decisions.md) that are the spec's own choice and not its
source's words. -/

open Sys2Proof Sys2Proof.Machine

/-! ### Encoding -/

/-- Decoding an encoded instruction gives it back, whatever bytes follow, for every instruction and every value of every
operand (the ill-formed address 0xFFFF included). Derived from 30_encoding.md sections 2 to 4. -/
def Obligations.DecodingAnEncodingGivesItBack : Prop :=
  ∀ (i : Instr) (rest : List Byte), decode (encode i ++ rest) = .ok i rest

/-- Whatever decodes is the encoding of what it decodes to: no instruction has two encodings, and no byte sequence two
meanings. Derived from 30_encoding.md sections 2 to 5 (a register byte above 15 is refused, not masked: D5). -/
def Obligations.WhatDecodesIsAnEncoding : Prop :=
  ∀ (bytes rest : List Byte) (i : Instr), decode bytes = .ok i rest → bytes = encode i ++ rest

/-- The opcode table's test: bytes of a row's length decode to an instruction of that row exactly when their AND with the
row's mask is the row's match, compared byte by byte. Derived from 30_encoding.md section 4 (marked there as derived; the
must-be-zero bits rest on D5). -/
def Obligations.DecodingIsTheTablesMaskAndMatch : Prop :=
  ∀ (op : Opcode) (bytes : List Byte), bytes.length = op.length →
    ((∃ i, decode bytes = .ok i [] ∧ i.opcode = op) ↔
      List.zipWith (fun b m => b &&& m) bytes (numberBytes (rowMask op) op.length) =
        numberBytes (rowMatch op) op.length)

/-- R51: the length is a function of the opcode byte alone: 4, 3, 1 or none, as its table lists, and decoding consumes that
many bytes. -/
def Obligations.LengthIsAFunctionOfTheOpcodeByte : Prop :=
  ∀ (b0 : Byte) (rest : List Byte),
    if b0 ∈ [0x01, 0x03, 0x04] then
      opcodeLength b0 = some 4 ∧
        ∀ i tail, decode (b0 :: rest) = .ok i tail → (b0 :: rest).length = tail.length + 4
    else if b0 ∈ [0x02, 0x05, 0x06, 0x07, 0x08, 0x09, 0x0A] then
      opcodeLength b0 = some 3 ∧
        ∀ i tail, decode (b0 :: rest) = .ok i tail → (b0 :: rest).length = tail.length + 3
    else if b0 = 0xFF then
      opcodeLength b0 = some 1 ∧
        ∀ i tail, decode (b0 :: rest) = .ok i tail → (b0 :: rest).length = tail.length + 1
    else
      opcodeLength b0 = none ∧ ∀ i tail, decode (b0 :: rest) ≠ .ok i tail

/-- R52: which byte of each instruction is which operand, for all eleven instructions; in STORE the address comes first and
the register byte last. A register byte is the register's index and an address or immediate is its high byte times 256 plus its
low byte. -/
def Obligations.OperandBytesStandWhereTheFormatsSay : Prop :=
  ∀ (r q : RegIx) (hi lo : Byte) (w : Word), w.toNat = hi.toNat * 256 + lo.toNat →
    decode [0x01, BitVec.ofNat 8 r.val, hi, lo] = .ok (.movi r w) [] ∧
    decode [0x02, BitVec.ofNat 8 r.val, BitVec.ofNat 8 q.val] = .ok (.mov r q) [] ∧
    decode [0x03, BitVec.ofNat 8 r.val, hi, lo] = .ok (.load r w) [] ∧
    decode [0x04, hi, lo, BitVec.ofNat 8 r.val] = .ok (.store w r) [] ∧
    decode [0x05, BitVec.ofNat 8 r.val, BitVec.ofNat 8 q.val] = .ok (.add r q) [] ∧
    decode [0x06, BitVec.ofNat 8 r.val, BitVec.ofNat 8 q.val] = .ok (.sub r q) [] ∧
    decode [0x07, BitVec.ofNat 8 r.val, BitVec.ofNat 8 q.val] = .ok (.cmp r q) [] ∧
    decode [0x08, hi, lo] = .ok (.jmp w) [] ∧
    decode [0x09, hi, lo] = .ok (.jz w) [] ∧
    decode [0x0A, hi, lo] = .ok (.jnz w) [] ∧
    decode [0xFF] = .ok .halt []

/-- The source's own worked encodings S1 to S11 (95_test_vectors.md section 1). -/
def Obligations.SourceExamplesDecode : Prop :=
  decode [0x01, 0x03, 0x12, 0x34] = .ok (.movi 3 0x1234) [] ∧
  decode [0x02, 0x04, 0x07] = .ok (.mov 4 7) [] ∧
  decode [0x03, 0x04, 0x12, 0x34] = .ok (.load 4 0x1234) [] ∧
  decode [0x04, 0x12, 0x34, 0x07] = .ok (.store 0x1234 7) [] ∧
  decode [0x05, 0x02, 0x03] = .ok (.add 2 3) [] ∧
  decode [0x06, 0x01, 0x04] = .ok (.sub 1 4) [] ∧
  decode [0x07, 0x02, 0x05] = .ok (.cmp 2 5) [] ∧
  decode [0x08, 0x01, 0x00] = .ok (.jmp 0x0100) [] ∧
  decode [0x09, 0x00, 0x20] = .ok (.jz 0x0020) [] ∧
  decode [0x0A, 0x00, 0x10] = .ok (.jnz 0x0010) [] ∧
  decode [0xFF] = .ok .halt []

/-! ### Memory -/

/-- R31: MemRead of `n` bytes is the number whose base-256 digits are the bytes, the lowest address most significant; for one
byte it is the byte and for two it is `M[a] * 256 + M[a+1]`. Reading is a function of memory and changes no state. -/
def Obligations.MemReadIsBigEndian : Prop :=
  ∀ (m : Memory) (a n : Nat), 1 ≤ n → a + n - 1 ≤ 0xFFFF →
    memRead m a n < 256 ^ n ∧
    (∀ k, k < n → memRead m a n / 256 ^ (n - 1 - k) % 256 = (m.read (a + k)).toNat) ∧
    (n = 1 → memRead m a n = (m.read a).toNat) ∧
    (n = 2 → memRead m a n = (m.read a).toNat * 256 + (m.read (a + 1)).toNat)

/-- R32: MemWrite puts bits 15..8 at the address and bits 7..0 at the next, and changes no other byte and no other state; the
one instruction that writes memory writes exactly this word, whole, in its one step. -/
def Obligations.MemWriteWritesHighThenLowByte : Prop :=
  (∀ (a : Nat) (v : Word) (s : State), a + 1 ≤ 0xFFFF →
    let t := storeWord a v s
    t.mem.read a = v.extractLsb 15 8 ∧ t.mem.read (a + 1) = v.extractLsb 7 0 ∧
    SameMemoryOutside a s t ∧ SameRegs s t ∧ SameFlags s t ∧ t.pc = s.pc ∧ SameControl s t) ∧
  (∀ (i : Instr) (s t : State), exec i s = .next t →
    (∀ address reg, i = .store address reg →
      ∃ a, effectiveAddress address = some a ∧ a + 1 ≤ 0xFFFF ∧
        t.mem = (storeWord a (readReg reg s) s).mem) ∧
    ((∀ address reg, i ≠ .store address reg) → t.mem = s.mem))

/-- Two word stores at neighbouring addresses compose byte by byte. Derived from 20_memory.md section 4 (its overlapping
accesses, marked there as derived). -/
def Obligations.OverlappingStoresComposeByByte : Prop :=
  ∀ (s : State) (a : Nat) (v w : Word), a + 2 ≤ 0xFFFF →
    let m := (storeWord (a + 1) w (storeWord a v s)).mem
    (memRead m a 2 = v.toNat / 256 * 256 + w.toNat / 256) ∧
    memRead m (a + 1) 2 = w.toNat ∧
    (m.read (a + 2)).toNat = w.toNat % 256

/-- R33: LOAD and STORE have no alignment requirement: at every address whose word lies inside memory, odd or even, they
complete and access exactly the bytes `a` and `a + 1`. (The two premises keep the access and the next pc inside the address space;
they say nothing of alignment.) -/
def Obligations.MisalignedAccessesAreAllowed : Prop :=
  ∀ (reg : RegIx) (address : Word) (s : State),
    address.toNat + 1 ≤ 0xFFFF → s.pc.toNat + 4 ≤ 0xFFFF →
    (∃ t, exec (.load reg address) s = .next t ∧
      (readReg reg t).toNat =
        (s.mem.read address.toNat).toNat * 256 + (s.mem.read (address.toNat + 1)).toNat ∧
      SameMemory s t) ∧
    (∃ t, exec (.store address reg) s = .next t ∧
      t.mem.read address.toNat = (readReg reg s).extractLsb 15 8 ∧
      t.mem.read (address.toNat + 1) = (readReg reg s).extractLsb 7 0 ∧
      SameMemoryOutside address.toNat s t)

/-- A word stored by STORE is the word a LOAD from the same address gets, into any register, and the LOAD's Z is 1 exactly when that
word is zero. Derived from 20_memory.md sections 4 and 6 (a read returns the last value written; D19, D23) and, for the Z clause, from
40_data_movement.md section 4 (that Z is cleared when the word is not zero is the spec's own decision D1, log entry 11). -/
def Obligations.StoredWordLoadsBack : Prop :=
  ∀ (address : Word) (r q : RegIx) (s t u : State),
    exec (.store address r) s = .next t → exec (.load q address) t = .next u →
    readReg q u = readReg r s ∧ u.z = decide (readReg r s = 0)

/-- Canonical memories that read alike at every address are equal, so that equality of states is equality of what they hold.
Derived from 10_state.md section 9 (memory is its 65,536 bytes); the list form is the model's (log entry 7). -/
def Obligations.CanonicalMemoriesReadingAlikeAreEqual : Prop :=
  ∀ (m n : Memory), m.wf = true → n.wf = true →
    (∀ a, a < 65536 → m.read a = n.read a) → m = n

/-! ### What each instruction does, completely -/

/-- MOVI completes wherever its next address fits: the register holds the immediate, Z is 1 exactly when it is zero, and nothing
else changes but the pc, which advances by 4. Derived from 40_data_movement.md sections 1 and 2 (Z cleared otherwise: D1; the
premise is where D8 raises no fault). -/
def Obligations.MoviLoadsItsImmediate : Prop :=
  ∀ (reg : RegIx) (imm : Word) (s : State), s.pc.toNat + 4 ≤ 0xFFFF →
    ∃ t, exec (.movi reg imm) s = .next t ∧
      readReg reg t = imm ∧ SameRegsExcept reg s t ∧
      t.z = decide (imm = 0) ∧ t.c = s.c ∧ t.pc.toNat = s.pc.toNat + 4 ∧
      SameMemory s t ∧ SameControl s t

/-- MOV completes wherever its next address fits: the destination holds the source's value, Z is 1 exactly when it is zero,
nothing else changes but the pc. Source and destination may be one register. Derived from 40_data_movement.md sections 1 and 3 (D1,
D8). -/
def Obligations.MovCopiesARegister : Prop :=
  ∀ (dest src : RegIx) (s : State), s.pc.toNat + 3 ≤ 0xFFFF →
    ∃ t, exec (.mov dest src) s = .next t ∧
      readReg dest t = readReg src s ∧ SameRegsExcept dest s t ∧
      t.z = decide (readReg src s = 0) ∧ t.c = s.c ∧ t.pc.toNat = s.pc.toNat + 3 ∧
      SameMemory s t ∧ SameControl s t

/-- LOAD completes at every word address but 0xFFFF: the register holds the big-endian word there, Z is 1 exactly when it is
zero, nothing else changes but the pc. Derived from 40_data_movement.md sections 1 and 4 (D1, D6, D8). -/
def Obligations.LoadReadsABigEndianWord : Prop :=
  ∀ (reg : RegIx) (address : Word) (s : State),
    address ≠ 0xFFFF → s.pc.toNat + 4 ≤ 0xFFFF →
    ∃ t, exec (.load reg address) s = .next t ∧
      (readReg reg t).toNat =
        (s.mem.read address.toNat).toNat * 256 + (s.mem.read (address.toNat + 1)).toNat ∧
      SameRegsExcept reg s t ∧ t.z = decide (readReg reg t = 0) ∧ t.c = s.c ∧
      t.pc.toNat = s.pc.toNat + 4 ∧ SameMemory s t ∧ SameControl s t

/-- STORE completes at every word address but 0xFFFF: the bytes of its effective address and of the next hold the register's
high and low byte, every other byte reads as before, and no register and no flag changes. Derived from 40_data_movement.md sections 1
and 5 (D6, D8). -/
def Obligations.StoreWritesABigEndianWord : Prop :=
  ∀ (address : Word) (reg : RegIx) (s : State),
    address ≠ 0xFFFF → s.pc.toNat + 4 ≤ 0xFFFF →
    ∃ t, exec (.store address reg) s = .next t ∧
      (∀ a, effectiveAddress address = some a →
        a = address.toNat ∧
        (t.mem.read a).toNat = (readReg reg s).toNat / 256 ∧
        (t.mem.read (a + 1)).toNat = (readReg reg s).toNat % 256 ∧
        SameMemoryOutside a s t) ∧
      SameRegs s t ∧ SameFlags s t ∧ t.pc.toNat = s.pc.toNat + 4 ∧ SameControl s t

/-- ADD completes wherever its next address fits: the destination holds the sum modulo 65536, Z is 1 exactly when that is zero,
C exactly when the sum is 65536 or more; the C before plays no part and the two registers may be one. Derived from 41_arithmetic.md
sections 1 and 2 (D1, D2, D3, D8). -/
def Obligations.AddWrapsAndCarries : Prop :=
  ∀ (dest src : RegIx) (s : State), s.pc.toNat + 3 ≤ 0xFFFF →
    let sum := (readReg dest s).toNat + (readReg src s).toNat
    ∃ t, exec (.add dest src) s = .next t ∧
      (readReg dest t).toNat = sum % 65536 ∧ SameRegsExcept dest s t ∧
      t.z = decide (sum % 65536 = 0) ∧ t.c = decide (sum ≥ 65536) ∧
      t.pc.toNat = s.pc.toNat + 3 ∧ SameMemory s t ∧ SameControl s t

/-- SUB completes wherever its next address fits: the destination holds the difference, plus 65536 when the operand was smaller;
Z is 1 exactly when the operands were equal, C exactly when a borrow occurs. Derived from 41_arithmetic.md sections 1 and 3 (D1, D3,
D8). -/
def Obligations.SubWrapsAndBorrows : Prop :=
  ∀ (dest src : RegIx) (s : State), s.pc.toNat + 3 ≤ 0xFFFF →
    let a := (readReg dest s).toNat
    let b := (readReg src s).toNat
    ∃ t, exec (.sub dest src) s = .next t ∧
      (readReg dest t).toNat = (if b ≤ a then a - b else a + 65536 - b) ∧
      SameRegsExcept dest s t ∧
      t.z = decide (a = b) ∧ t.c = decide (a < b) ∧
      t.pc.toNat = s.pc.toNat + 3 ∧ SameMemory s t ∧ SameControl s t

/-- CMP completes wherever its next address fits: Z is 1 exactly when the registers are equal, C exactly when the first is
smaller, unsigned; no register changes. Derived from 42_comparison.md section 1 (D1, D8). -/
def Obligations.CmpSetsFlagsOnly : Prop :=
  ∀ (regA regB : RegIx) (s : State), s.pc.toNat + 3 ≤ 0xFFFF →
    ∃ t, exec (.cmp regA regB) s = .next t ∧
      SameRegs s t ∧
      t.z = decide (readReg regA s = readReg regB s) ∧
      t.c = decide ((readReg regA s).toNat < (readReg regB s).toNat) ∧
      t.pc.toNat = s.pc.toNat + 3 ∧ SameMemory s t ∧ SameControl s t

/-- JMP always completes, JZ and JNZ when taken always and when not taken wherever the next address fits; the pc is the target or
advances by 3, and nothing else changes. Derived from 43_control_flow.md sections 2 to 4 (not taken at the top of memory: D8). -/
def Obligations.JumpsChangeThePcOnly : Prop :=
  ∀ (address : Word) (s : State),
    exec (.jmp address) s = .next { s with pc := address } ∧
    (s.z = true → exec (.jz address) s = .next { s with pc := address }) ∧
    (s.z = false → exec (.jnz address) s = .next { s with pc := address }) ∧
    (s.pc.toNat + 3 ≤ 0xFFFF → s.z = false →
      exec (.jz address) s = .next { s with pc := s.pc + 3 }) ∧
    (s.pc.toNat + 3 ≤ 0xFFFF → s.z = true →
      exec (.jnz address) s = .next { s with pc := s.pc + 3 })

/-- HALT always completes: the machine is halted, and every register, both flags and all of memory keep their values. Nothing is said
of the pc, which the spec leaves unspecified (D9, log entry 3). Derived from 44_system.md section 1. -/
def Obligations.HaltStopsAndKeepsTheState : Prop :=
  ∀ (s : State),
    ∃ t, exec .halt s = .next t ∧ t.status = .halted ∧
      SameRegs s t ∧ SameFlags s t ∧ t.mem = s.mem

/-! ### Jumps and HALT as the machine steps through them -/

/-- R95: a jump is three bytes, opcode, high byte and low byte of an absolute target, and every target is legal. Taken, it sets the
pc to the target and does not advance; not taken, it advances by 3 like any other instruction. It changes no register, no memory and no
flag, and of the flags only Z decides. (The premise on the pc is that the three bytes lie inside memory; that of the not-taken clauses,
that the next address does.) -/
def Obligations.JumpStepsGoToTheirAbsoluteTarget : Prop :=
  ∀ (s : State) (target : Word),
    s.status = .running → s.pc.toNat + 2 ≤ 0xFFFF →
    target.toNat =
      (s.mem.read (s.pc.toNat + 1)).toNat * 256 + (s.mem.read (s.pc.toNat + 2)).toNat →
    (s.mem.read s.pc.toNat = 0x08 → step s = .next { s with pc := target }) ∧
    (s.mem.read s.pc.toNat = 0x09 → s.z = true → step s = .next { s with pc := target }) ∧
    (s.mem.read s.pc.toNat = 0x0A → s.z = false → step s = .next { s with pc := target }) ∧
    (s.mem.read s.pc.toNat = 0x09 → s.z = false → s.pc.toNat + 3 ≤ 0xFFFF →
      step s = .next { s with pc := s.pc + 3 }) ∧
    (s.mem.read s.pc.toNat = 0x0A → s.z = true → s.pc.toNat + 3 ≤ 0xFFFF →
      step s = .next { s with pc := s.pc + 3 })

/-- A running machine whose pc holds the byte 0xFF, at any address up to 0xFFFF, halts without a fault; registers, flags and memory keep
their values, no further step is ever taken, and the host reads back exactly those values. Nothing is said of the pc (D9). Derived from
44_system.md section 1 and, for the run status and what the host reads back, from 70_reset_and_hazards.md sections 2 and 3 (the spec's own
decisions D20 and D22, log entry 19). -/
def Obligations.HaltByteEndsTheRun : Prop :=
  ∀ (s : State), s.status = .running → s.mem.read s.pc.toNat = 0xFF →
    (∃ t, step s = .next t ∧ t.status = .halted ∧ SameRegs s t ∧ SameFlags s t ∧
      t.mem = s.mem ∧ ∀ u, step t ≠ .next u) ∧
    ∀ n, fateWithin (n + 1) s =
      some (.halts { regs := s.regs, z := s.z, c := s.c, mem := s.mem })

/-- A JMP to its own address changes no state, so the run neither halts nor faults, however long it goes on. Derived from
43_control_flow.md section 2 and 70_reset_and_hazards.md section 3 (the third fate). -/
def Obligations.JumpToItselfNeverEnds : Prop :=
  ∀ (s : State), s.status = .running → s.pc.toNat + 2 ≤ 0xFFFF →
    s.mem.read s.pc.toNat = 0x08 →
    s.pc.toNat =
      (s.mem.read (s.pc.toNat + 1)).toNat * 256 + (s.mem.read (s.pc.toNat + 2)).toNat →
    ∀ n, machineAfter n s = s ∧ fateWithin n s = none

/-! ### Frames over every instruction -/

/-- A register that an instruction does not name as its destination keeps its value. Derived from 10_state.md section 2 (its table of
registers written, marked there as derived). -/
def Obligations.OnlyTheDestinationRegisterChanges : Prop :=
  ∀ (i : Instr) (s t : State), exec i s = .next t →
    ∀ r, r ∉ regsWritten i → readReg r t = readReg r s

/-- Memory changes only at the word a STORE addresses, computed as the meaning computes it; an instruction that stores nothing leaves
every byte. Derived from 20_memory.md section 4 and 40_data_movement.md section 5. -/
def Obligations.OnlyTheStoredWordChanges : Prop :=
  ∀ (i : Instr) (s t : State), exec i s = .next t →
    (∀ w, storedWord i = some w → SameMemoryOutside w s t) ∧
    (storedWord i = none → SameMemory s t)

/-- Z changes only under MOVI, MOV, LOAD, ADD, SUB and CMP, and C only under ADD, SUB and CMP. Derived from 10_state.md section 4. -/
def Obligations.OnlyTheNamedFlagsChange : Prop :=
  ∀ (i : Instr) (s t : State), exec i s = .next t →
    (writesZ i = false → t.z = s.z) ∧ (writesC i = false → t.c = s.c)

/-- HALT alone changes the run status, and sets it to halted; no instruction leaves the machine faulted by completing. Derived from
10_state.md section 6 (the run status is the spec's own: D20). -/
def Obligations.OnlyHaltChangesTheRunStatus : Prop :=
  ∀ (i : Instr) (s t : State), exec i s = .next t →
    (i = .halt → t.status = .halted) ∧ (i ≠ .halt → SameControl s t)

/-- The pc after an instruction other than HALT is the target of a taken jump, and otherwise exactly the instruction's length further
on, never wrapped. Derived from 10_state.md section 3 (no wrap: D8). -/
def Obligations.PcAdvancesUnlessAJumpIsTaken : Prop :=
  ∀ (i : Instr) (s t : State), exec i s = .next t → i ≠ .halt →
    (∀ target, jumpTarget i s = some target → t.pc = target) ∧
    (jumpTarget i s = none → t.pc.toNat = s.pc.toNat + (encode i).length)

/-- A register that an instruction does not read has no influence: with any other value in it, the instruction stops with the same
fault or reaches the same state, but for that register where the instruction does not write it, and but for the pc where the
instruction is HALT: of the pc after HALT nothing is said, since no claim may depend on it (D9, log entry 3). Derived from 10_state.md
section 2 (its table of registers read, marked there as derived) and 44_system.md section 1. -/
def Obligations.RegistersNotReadHaveNoInfluence : Prop :=
  ∀ (i : Instr) (r : RegIx) (v : Word) (s : State), r ∉ regsRead i →
    (∀ f, exec i s = .fault f → exec i (writeReg r v s) = .fault f) ∧
    (∀ t, exec i s = .next t →
      ∃ u, exec i (writeReg r v s) = .next u ∧
        (∀ q, q ≠ r → readReg q u = readReg q t) ∧
        readReg r u = (if r ∈ regsWritten i then readReg r t else v) ∧
        SameFlags t u ∧ u.mem = t.mem ∧ SameControl t u ∧ (i ≠ .halt → u.pc = t.pc))

/-- SUB and CMP on the same operands leave the same flags, pc and memory; SUB alone writes a register, its first operand. Derived from
42_comparison.md section 1. -/
def Obligations.CmpIsSubWithoutTheResult : Prop :=
  ∀ (a b : RegIx) (s : State), s.pc.toNat + 3 ≤ 0xFFFF →
    ∃ t u, exec (.sub a b) s = .next t ∧ exec (.cmp a b) s = .next u ∧
      SameFlags u t ∧ t.pc = u.pc ∧ SameMemory u t ∧ SameRegsExcept a u t ∧ SameRegs s u

/-- The flags after CMP or SUB tell the unsigned order of the operands: equal, greater or smaller, one case each. Derived from
42_comparison.md section 1 (its table of outcomes, marked there as derived). -/
def Obligations.FlagsTellTheUnsignedOrder : Prop :=
  ∀ (i : Instr) (a b : RegIx) (s t : State),
    (i = .cmp a b ∨ i = .sub a b) → exec i s = .next t →
    (t.z = true ∧ t.c = false ↔ (readReg a s).toNat = (readReg b s).toNat) ∧
    (t.z = false ∧ t.c = false ↔ (readReg a s).toNat > (readReg b s).toNat) ∧
    (t.z = false ∧ t.c = true ↔ (readReg a s).toNat < (readReg b s).toNat)

/-- The idioms of one register: SUB clears it with Z 1 and C 0; CMP gives the same flags and keeps it; MOV keeps every register but
sets Z from it; ADD doubles it with bit 15 shifted into C; and a JMP to the next address changes the pc alone. Derived from
30_encoding.md section 6 (its idioms, marked there as derived). -/
def Obligations.OneRegisterIdioms : Prop :=
  ∀ (r : RegIx) (s : State), s.pc.toNat + 3 ≤ 0xFFFF →
    (∃ t, exec (.sub r r) s = .next t ∧ readReg r t = 0 ∧ t.z = true ∧ t.c = false) ∧
    (∃ t, exec (.cmp r r) s = .next t ∧ SameRegs s t ∧ t.z = true ∧ t.c = false) ∧
    (∃ t, exec (.mov r r) s = .next t ∧ SameRegs s t ∧ t.z = decide (readReg r s = 0)) ∧
    (∃ t, exec (.add r r) s = .next t ∧ readReg r t = readReg r s <<< 1 ∧
      t.c = (readReg r s).getLsbD 15) ∧
    exec (.jmp (s.pc + 3)) s = .next { s with pc := s.pc + 3 }

/-! ### Faults -/

/-- Execution itself stops for two reasons only, and in this order: a LOAD or STORE at 0xFFFF raises DataWrap; an instruction that would
advance past 0xFFFF raises PcWrap; everything else completes. Derived from 60_exceptions.md section 1 (D6, D8, D16 are the spec's own
decisions). -/
def Obligations.ExecutionStopsOnlyOnDataWrapOrPcWrap : Prop :=
  ∀ (i : Instr) (s : State),
    (WellFormed i = false → exec i s = .fault (.dataWrap 0xFFFF)) ∧
    (WellFormed i = true → i ≠ .halt → jumpTarget i s = none →
      s.pc.toNat + (encode i).length > 0xFFFF → exec i s = .fault (.pcWrap s.pc)) ∧
    (WellFormed i = true →
      (i = .halt ∨ jumpTarget i s ≠ none ∨ s.pc.toNat + (encode i).length ≤ 0xFFFF) →
      ∃ t, exec i s = .next t)

/-- A step at an undefined opcode byte (0x00, or 0x0B to 0xFE) raises IllegalOpcode with the pc and the byte, at every address, 0xFFFF
included. Derived from 30_encoding.md section 5 (D4). -/
def Obligations.UndefinedOpcodesFault : Prop :=
  ∀ (s : State), s.status = .running →
    (s.mem.read s.pc.toNat = 0x00 ∨
      (0x0B ≤ (s.mem.read s.pc.toNat).toNat ∧ (s.mem.read s.pc.toNat).toNat ≤ 0xFE)) →
    step s = .fault (.illegalOpcode s.pc (s.mem.read s.pc.toNat))

/-- A step at an instruction whose last byte would lie past 0xFFFF raises FetchWrap: a 4-byte instruction from 0xFFFD on, a 3-byte one
from 0xFFFE on. Derived from 20_memory.md section 3 and 60_exceptions.md section 1 (D7). -/
def Obligations.InstructionsPastTheTopFault : Prop :=
  ∀ (s : State), s.status = .running →
    ((s.mem.read s.pc.toNat).toNat ∈ [0x01, 0x03, 0x04] → s.pc.toNat ≥ 0xFFFD →
      step s = .fault (.fetchWrap s.pc)) ∧
    ((s.mem.read s.pc.toNat).toNat ∈ [0x02, 0x05, 0x06, 0x07, 0x08, 0x09, 0x0A] →
      s.pc.toNat ≥ 0xFFFE → step s = .fault (.fetchWrap s.pc))

/-- A step at an instruction that fits but has a register byte above 15 raises InvalidRegister, whatever its address operand and
wherever it ends, so before DataWrap and PcWrap. Derived from 30_encoding.md section 5 and 60_exceptions.md section 1 (D5, D16). -/
def Obligations.RegisterBytesAboveFifteenFault : Prop :=
  ∀ (s : State), s.status = .running →
    ((s.mem.read s.pc.toNat).toNat ∈ [0x01, 0x03] → s.pc.toNat + 3 ≤ 0xFFFF →
      15 < (s.mem.read (s.pc.toNat + 1)).toNat → step s = .fault (.invalidRegister s.pc)) ∧
    ((s.mem.read s.pc.toNat).toNat = 0x04 → s.pc.toNat + 3 ≤ 0xFFFF →
      15 < (s.mem.read (s.pc.toNat + 3)).toNat → step s = .fault (.invalidRegister s.pc)) ∧
    ((s.mem.read s.pc.toNat).toNat ∈ [0x02, 0x05, 0x06, 0x07] → s.pc.toNat + 2 ≤ 0xFFFF →
      15 < (s.mem.read (s.pc.toNat + 1)).toNat ∨ 15 < (s.mem.read (s.pc.toNat + 2)).toNat →
      step s = .fault (.invalidRegister s.pc))

/-- A running machine's step completes or raises one of the five faults: it is never refused and never without a step. Derived from
60_exceptions.md section 1 and 93_implementation_defined.md section 2 ("a running machine always has a step"). -/
def Obligations.RunningMachineCompletesOrRaisesAFault : Prop :=
  ∀ (s : State), s.status = .running →
    (∃ t, step s = .next t) ∨ (∃ f k, step s = .fault f ∧ f.kind = some k)

/-- A fault is terminal: the machine's status is Faulted of that kind after the step and for ever. Derived from 60_exceptions.md section 1
(D15; the model shows the faulted machine through its run, log entry 1). -/
def Obligations.AFaultEndsTheRun : Prop :=
  ∀ (s : State) (f : Fault), s.status = .running → step s = .fault f →
    ∃ k, f.kind = some k ∧
      ∀ n, (machineAfter (n + 1) s).status = .faulted k ∧ fateWithin (n + 1) s = some (.faults k)

/-- A machine that has halted or faulted takes no step and is never left: its run stays at that state. Derived from 10_state.md section 6
(D20; that a step there is a named stop is log entry 2). -/
def Obligations.StoppedMachineNeverSteps : Prop :=
  ∀ (s : State), s.status ≠ .running →
    (∀ t, step s ≠ .next t) ∧ ∀ n, machineAfter n s = s

/-! ### Fetching -/

/-- When the bytes at the pc, all inside memory, decode to an instruction, the step of a running machine is that instruction's
execution and nothing else: the step adds nothing around it. Derived from 70_reset_and_hazards.md section 3 and 30_encoding.md
section 4. -/
def Obligations.StepRunsTheDecodedInstruction : Prop :=
  ∀ (s : State) (i : Instr), s.status = .running →
    s.pc.toNat + (encode i).length ≤ 0x10000 →
    decode (s.mem.bytes s.pc.toNat (encode i).length) = .ok i [] →
    step s = exec i s

/-- A STORE is seen by the fetches after it: the bytes fetched anywhere are the old ones but for the stored word's two. So a STORE that
puts the byte 0xFF where the next instruction starts makes the very next step a HALT. Derived from 20_memory.md section 6 (marked there as
derived; D19). -/
def Obligations.NextFetchSeesTheStore : Prop :=
  ∀ (address : Word) (reg : RegIx) (s t : State) (a : Nat),
    exec (.store address reg) s = .next t → effectiveAddress address = some a →
    (∀ p n k, k < n → (t.mem.bytes p n)[k]? =
      some (if p + k = a then (readReg reg s).extractLsb 15 8
        else if p + k = a + 1 then (readReg reg s).extractLsb 7 0
        else s.mem.read (p + k))) ∧
    (s.status = .running → a = s.pc.toNat + 4 → (readReg reg s).extractLsb 15 8 = (0xFF : Byte) →
      ∃ u, step t = .next u ∧ u.status = .halted)

/-- A table word placed at the pc is the instruction the very next step runs. Derived from 70_reset_and_hazards.md section 3 and
30_encoding.md section 4 (placing it stands for the host's load of IMAGE, log entry 9; the bit numbering is log entry 10). -/
def Obligations.PlacedTableWordRunsNext : Prop :=
  ∀ (s : State) (nbits w : Nat) (i : Instr),
    s.pc.toNat + 4 ≤ 0x10000 → nbits ≤ 32 → decodeTableWord nbits w = some i →
    step (s.withFetchWord nbits w) = exec i (s.withFetchWord nbits w)

/-! ### Launch and invariants -/

/-- A launch holds what the host gives: memory is the image of 65,536 bytes, the pc the entry address, the registers and flags the given
ones, whatever they are, and the machine runs. Derived from 70_reset_and_hazards.md section 1 (D11, D12, D13). -/
def Obligations.LaunchHoldsTheImageAndTheEntry : Prop :=
  ∀ (image : List Byte) (entryPc : Word) (initR : Vector Word 16) (initZ initC : Bool),
    image.length = 65536 →
    let s := launch image entryPc initR initZ initC
    (∀ a b, image[a]? = some b → s.mem.read a = b) ∧
    s.pc = entryPc ∧ s.regs = initR ∧ s.z = initZ ∧ s.c = initC ∧ s.status = .running

/-- The reset state the model names is a launch: no image, entry 0x0000, zero registers and clear flags, running. All but the status are
the model's choices (log entries 4 to 7), not the spec's. Derived from 10_state.md section 11. -/
def Obligations.ResetIsTheZeroLaunch : Prop :=
  State.reset = launch [] 0 (Vector.replicate 16 0) false false ∧
  (∀ r, readReg r State.reset = 0) ∧ (∀ a, State.reset.mem.read a = 0) ∧
  State.reset.status = .running

/-- Every launch, and the reset state, has canonical memory. Derived from 10_state.md section 9; the canonical form is the model's
(log entry 7). -/
def Obligations.LaunchMemoryIsCanonical : Prop :=
  State.reset.mem.wf = true ∧
  ∀ image entryPc initR initZ initC, (launch image entryPc initR initZ initC).mem.wf = true

/-- Every step keeps memory canonical: addresses rising, all below 65,536, no byte listed that an unlisted address would read as. Derived
from 10_state.md section 9 and 20_memory.md section 3 (no access leaves the address space: D6); the form is the model's (log
entry 7). -/
def Obligations.EveryStepKeepsMemoryCanonical : Prop :=
  ∀ (s t : State), s.mem.wf = true → step s = .next t → t.mem.wf = true

/-! ### Runs -/

/-- A run has at most one fate: once it has halted or faulted within some number of steps, it has that same fate, with the same
observation, within any larger number. Derived from 70_reset_and_hazards.md section 3 (determinism, marked there as derived). -/
def Obligations.ARunHasOneFate : Prop :=
  ∀ (n m : Nat) (s : State) (f : Fate), n ≤ m → fateWithin n s = some f → fateWithin m s = some f

/-- Which free value a HALT leaves in the pc is never observed: the fate of every run, with all it shows, is the same whatever free values
are drawn. Derived from 44_system.md section 1 and 70_reset_and_hazards.md section 3 (D9, D22). That the free value is
Config.freeWord of the counter draws is the model's choice (log entry 3); the statement holds for every value of that counter. -/
def Obligations.PcAfterHaltIsNeverObserved : Prop :=
  ∀ (n d : Nat) (s : State), fateWithin n { s with draws := d } = fateWithin n s

/-- C never steers a run: two machines that differ only in C run alike, halting with the same registers, Z and memory, or faulting with
the same kind, or neither. Derived from 10_state.md section 4 ("`C` is read by no instruction"). -/
def Obligations.CarryNeverSteersARun : Prop :=
  ∀ (n : Nat) (b : Bool) (s : State),
    match fateWithin n s, fateWithin n (setC b s) with
    | none, none => True
    | some (.faults k), some (.faults k') => k = k'
    | some (.halts o), some (.halts o') => o.regs = o'.regs ∧ o.z = o'.z ∧ o.mem = o'.mem
    | _, _ => False
end

