-- ==== Sys2Proof/Laws/Decode.lean ====
section
/-! SUPPORT. The small lemmas of the encoding's definitions: bytes of a word, register bytes, opcode bytes. -/

namespace Sys2Proof

@[simp] theorem toNat_joinBytes (hi lo : Byte) :
    (joinBytes hi lo).toNat = hi.toNat * 256 + lo.toNat := by
  have h1 := hi.isLt
  have h2 := lo.isLt
  simp only [joinBytes, BitVec.toNat_ofNat]
  omega

@[simp] theorem toNat_highByte (w : Word) : (highByte w).toNat = w.toNat / 256 := by
  have h := w.isLt
  simp only [highByte, BitVec.toNat_ofNat]
  omega

@[simp] theorem toNat_lowByte (w : Word) : (lowByte w).toNat = w.toNat % 256 := by
  simp [lowByte]

/-- A word is its two bytes, high byte first (30_encoding.md R55). -/
@[simp] theorem joinBytes_high_low (w : Word) : joinBytes (highByte w) (lowByte w) = w := by
  apply BitVec.eq_of_toNat_eq
  simp only [toNat_joinBytes, toNat_highByte, toNat_lowByte]
  omega

@[simp] theorem highByte_joinBytes (hi lo : Byte) : highByte (joinBytes hi lo) = hi := by
  apply BitVec.eq_of_toNat_eq
  have h2 := lo.isLt
  simp only [toNat_highByte, toNat_joinBytes]
  omega

@[simp] theorem lowByte_joinBytes (hi lo : Byte) : lowByte (joinBytes hi lo) = lo := by
  apply BitVec.eq_of_toNat_eq
  have h2 := lo.isLt
  simp only [toNat_lowByte, toNat_joinBytes]
  omega

/-- A register's byte names that register (30_encoding.md R54). -/
@[simp] theorem registerOfByte_registerByte (r : RegIx) : registerOfByte (registerByte r) = some r := by
  have h := r.isLt
  have e : (registerByte r).toNat = r.val := by
    simp only [registerByte, BitVec.toNat_ofNat]; omega
  simp [registerOfByte, e, h]

/-- The only byte that names a register is that register's byte. -/
theorem registerByte_of_registerOfByte {b : Byte} {r : RegIx} (h : registerOfByte b = some r) :
    b = registerByte r := by
  unfold registerOfByte at h
  split at h
  · cases h
    simp [registerByte]
  · cases h

/-- A register byte names no register exactly when it is above 15 (30_encoding.md R54). -/
theorem registerOfByte_eq_none_iff (b : Byte) : registerOfByte b = none ↔ 15 < b.toNat := by
  unfold registerOfByte
  split <;> simp <;> omega

@[simp] theorem opcodeOf_byte (op : Opcode) : opcodeOf op.byte = some op := by
  cases op <;> rfl

/-- The only byte that selects an opcode is that opcode's byte (30_encoding.md R56). -/
theorem byte_of_opcodeOf {b : Byte} {op : Opcode} (h : opcodeOf b = some op) : b = op.byte := by
  apply BitVec.eq_of_toNat_eq
  unfold opcodeOf at h
  split at h <;> first | (cases h; assumption) | cases h

@[simp] theorem opcodeLength_byte (op : Opcode) : opcodeLength op.byte = some op.length := by
  simp [opcodeLength]

/-! ### Lengths (30_encoding.md R51) -/

@[simp] theorem length_movi : Opcode.movi.length = 4 := rfl
@[simp] theorem length_mov : Opcode.mov.length = 3 := rfl
@[simp] theorem length_load : Opcode.load.length = 4 := rfl
@[simp] theorem length_store : Opcode.store.length = 4 := rfl
@[simp] theorem length_add : Opcode.add.length = 3 := rfl
@[simp] theorem length_sub : Opcode.sub.length = 3 := rfl
@[simp] theorem length_cmp : Opcode.cmp.length = 3 := rfl
@[simp] theorem length_jmp : Opcode.jmp.length = 3 := rfl
@[simp] theorem length_jz : Opcode.jz.length = 3 := rfl
@[simp] theorem length_jnz : Opcode.jnz.length = 3 := rfl
@[simp] theorem length_halt : Opcode.halt.length = 1 := rfl

/-- An encoding has as many bytes as its opcode's length. -/
@[simp] theorem length_encode (i : Instr) : (encode i).length = i.opcode.length := by
  cases i <;> rfl

end Sys2Proof
end

