-- ==== Sys2Proof/Laws/Memory.lean ====
section
/-! SUPPORT. Memory: a read after a write, and that every operation keeps the canonical form. -/

namespace Sys2Proof.Machine

/-! ### Reading -/

theorem Memory.read_clear (m : Memory) (a b : Nat) :
    (m.clear a).read b = if b = a then Config.unlistedByte else m.read b := by
  induction m with
  | nil => simp [Memory.clear, Memory.read]
  | cons cell rest ih =>
    obtain ⟨c, w⟩ := cell
    simp only [Memory.clear, List.filter_cons, bne_iff_ne, ne_eq] at ih ⊢
    by_cases hc : c = a
    · subst hc
      by_cases hb : b = c
      · subst hb; simpa using ih
      · simp [ih, hb, Memory.read, Ne.symm hb]
    · by_cases hb : c = b
      · subst hb; simp [hc, Memory.read]
      · simp [hc, hb, Memory.read, ih]

theorem Memory.read_insert_other (a : Nat) (v : Byte) (m : Memory) (b : Nat) (h : b ≠ a) :
    (Memory.insert a v m).read b = m.read b := by
  induction m with
  | nil => simp [Memory.insert, Memory.read, Ne.symm h]
  | cons cell rest ih =>
    obtain ⟨c, w⟩ := cell
    by_cases hc : a < c
    · simp [Memory.insert, hc, Memory.read, Ne.symm h]
    · simp [Memory.insert, hc, Memory.read, ih]

theorem Memory.read_insert_same (a : Nat) (v : Byte) (m : Memory) (h : ∀ cell ∈ m, cell.1 ≠ a) :
    (Memory.insert a v m).read a = v := by
  induction m with
  | nil => simp [Memory.insert, Memory.read]
  | cons cell rest ih =>
    obtain ⟨c, w⟩ := cell
    have hc : c ≠ a := h (c, w) (by simp)
    have hr := ih fun x hx => h x (by simp [hx])
    by_cases hlt : a < c
    · simp [Memory.insert, hlt, Memory.read]
    · simp [Memory.insert, hlt, Memory.read, hc, hr]

theorem Memory.clear_no_entry (m : Memory) (a : Nat) : ∀ cell ∈ m.clear a, cell.1 ≠ a := by
  intro cell h
  simpa using (List.mem_filter.mp h).2

/-- The one law of reading after a byte is written, for every memory, canonical or not. -/
theorem Memory.read_write (m : Memory) (a : Nat) (v : Byte) (b : Nat) :
    (m.write a v).read b = if b = a then v else m.read b := by
  unfold Memory.write
  split
  · next hv => rw [Memory.read_clear, hv]
  · by_cases hb : b = a
    · subst hb
      simp [Memory.read_insert_same _ _ _ (Memory.clear_no_entry m b)]
    · simp [Memory.read_insert_other _ _ _ _ hb, Memory.read_clear, hb]

/-- What every byte reads as after a word is stored (20_memory.md R32). -/
theorem read_writeWord (m : Memory) (a : Nat) (v : Word) (b : Nat) :
    (writeWord m a v).read b =
      if b = a + 1 then lowByte v else if b = a then highByte v else m.read b := by
  simp only [writeWord, Memory.read_write]

/-- Placed bytes read back in order, and every other byte is as before. -/
theorem read_placeBytes (bytes : List Byte) (m : Memory) (a b : Nat) :
    (placeBytes m a bytes).read b =
      if h : a ≤ b ∧ b < a + bytes.length ∧ b < Config.memSize
      then bytes[b - a]'(by omega) else m.read b := by
  induction bytes generalizing m a with
  | nil =>
    have : ¬ (a ≤ b ∧ b < a + 0 ∧ b < Config.memSize) := by omega
    simp [placeBytes]; omega
  | cons x rest ih =>
    rw [placeBytes, ih]
    by_cases hb : a + 1 ≤ b ∧ b < a + 1 + rest.length ∧ b < Config.memSize
    · have hc : a ≤ b ∧ b < a + (x :: rest).length ∧ b < Config.memSize := by
        simp only [List.length_cons]; omega
      obtain ⟨k, hk⟩ : ∃ k, b - a = k + 1 := ⟨b - a - 1, by omega⟩
      have hk' : b - (a + 1) = k := by omega
      simp only [hb, hc, and_self, ↓reduceDIte, hk, hk', List.getElem_cons_succ]
    · rw [dif_neg hb]
      by_cases hba : b = a ∧ a < Config.memSize
      · obtain ⟨rfl, hm⟩ := hba
        have hc : b ≤ b ∧ b < b + (x :: rest).length ∧ b < Config.memSize := by
          simp only [List.length_cons]; omega
        simp [hm, Memory.read_write]
      · have hc : ¬ (a ≤ b ∧ b < a + (x :: rest).length ∧ b < Config.memSize) := by
          simp only [List.length_cons]; omega
        rw [dif_neg hc]
        split
        · next hm => rw [Memory.read_write, if_neg (fun e => hba ⟨e, hm⟩)]
        · rfl

@[simp] theorem Memory.length_bytes (m : Memory) (a n : Nat) : (m.bytes a n).length = n := by
  induction n generalizing a with
  | zero => rfl
  | succ n ih => simp [Memory.bytes, ih]

/-- The bytes fetched from two memories that read alike there are the same bytes. -/
theorem Memory.bytes_congr {m m' : Memory} {a n : Nat}
    (h : ∀ k, k < n → m.read (a + k) = m'.read (a + k)) : m.bytes a n = m'.bytes a n := by
  induction n generalizing a with
  | zero => rfl
  | succ n ih =>
    simp only [Memory.bytes]
    rw [show m.read a = m'.read a from h 0 (Nat.succ_pos n)]
    rw [ih fun k hk => by simpa [Nat.add_assoc, Nat.add_comm 1 k] using h (k + 1) (by omega)]

/-- The word read at an address: the byte there times 256, plus the next byte (20_memory.md R31). -/
theorem readWord_eq_joinBytes (m : Memory) (a : Nat) :
    readWord m a = joinBytes (m.read a) (m.read (a + 1)) := by
  simp [readWord, memRead, bigEndian, Memory.bytes, joinBytes]

/-! ### The canonical form -/

theorem Memory.wfFrom_mono {m : Memory} {lo hi : Nat} (h : m.wfFrom hi = true) (hle : lo ≤ hi) :
    m.wfFrom lo = true := by
  cases m with
  | nil => rfl
  | cons cell rest =>
    obtain ⟨b, w⟩ := cell
    simp only [Memory.wfFrom, Bool.and_eq_true, decide_eq_true_eq] at h ⊢
    exact ⟨⟨⟨by omega, h.1.1.2⟩, h.1.2⟩, h.2⟩

theorem Memory.wfFrom_clear {m : Memory} {lo : Nat} (a : Nat) (h : m.wfFrom lo = true) :
    (m.clear a).wfFrom lo = true := by
  induction m generalizing lo with
  | nil => rfl
  | cons cell rest ih =>
    obtain ⟨b, w⟩ := cell
    simp only [Memory.wfFrom, Bool.and_eq_true, decide_eq_true_eq] at h
    have hr := ih h.2
    by_cases hb : b = a
    · simpa [Memory.clear, hb] using Memory.wfFrom_mono hr (by omega)
    · have : Memory.clear ((b, w) :: rest) a = (b, w) :: Memory.clear rest a := by
        simp [Memory.clear, hb]
      rw [this]
      simp only [Memory.wfFrom, Bool.and_eq_true, decide_eq_true_eq]
      exact ⟨h.1, hr⟩

theorem Memory.wfFrom_insert {m : Memory} {lo a : Nat} {v : Byte} (h : m.wfFrom lo = true)
    (hlo : lo ≤ a) (ha : a < Config.memSize) (hv : v ≠ Config.unlistedByte)
    (hne : ∀ cell ∈ m, cell.1 ≠ a) : (Memory.insert a v m).wfFrom lo = true := by
  induction m generalizing lo with
  | nil => simp [Memory.insert, Memory.wfFrom, hlo, ha, hv]
  | cons cell rest ih =>
    obtain ⟨b, w⟩ := cell
    simp only [Memory.wfFrom, Bool.and_eq_true, decide_eq_true_eq] at h
    have hb : b ≠ a := hne (b, w) (by simp)
    by_cases hlt : a < b
    · simp only [Memory.insert, hlt, ↓reduceIte, Memory.wfFrom, Bool.and_eq_true,
        decide_eq_true_eq]
      exact ⟨⟨⟨hlo, ha⟩, hv⟩, ⟨⟨hlt, h.1.1.2⟩, h.1.2⟩, h.2⟩
    · simp only [Memory.insert, hlt, ↓reduceIte, Memory.wfFrom, Bool.and_eq_true,
        decide_eq_true_eq]
      exact ⟨h.1, ih h.2 (by omega) fun x hx => hne x (by simp [hx])⟩

/-- A byte written inside the address space keeps the canonical form. -/
theorem Memory.wf_write {m : Memory} {a : Nat} (v : Byte) (h : m.wf = true)
    (ha : a < Config.memSize) : (m.write a v).wf = true := by
  unfold Memory.write
  split
  · exact Memory.wfFrom_clear a h
  · next hv =>
    exact Memory.wfFrom_insert (Memory.wfFrom_clear a h) (Nat.zero_le a) ha hv
      (Memory.clear_no_entry m a)

/-- A word stored inside the address space keeps the canonical form. -/
theorem wf_writeWord {m : Memory} {a : Nat} (v : Word) (h : m.wf = true)
    (ha : a + 1 < Config.memSize) : (writeWord m a v).wf = true :=
  Memory.wf_write _ (Memory.wf_write _ h (by omega)) ha

/-- Placing bytes keeps the canonical form. -/
theorem wf_placeBytes (bytes : List Byte) {m : Memory} (a : Nat) (h : m.wf = true) :
    (placeBytes m a bytes).wf = true := by
  induction bytes generalizing m a with
  | nil => exact h
  | cons x rest ih =>
    rw [placeBytes]
    apply ih
    split
    · next ha => exact Memory.wf_write x h ha
    · exact h

/-- In a canonical memory, no address below the bound is listed. -/
theorem Memory.read_below {m : Memory} {lo a : Nat} (h : m.wfFrom lo = true) (ha : a < lo) :
    m.read a = Config.unlistedByte := by
  induction m generalizing lo with
  | nil => rfl
  | cons cell rest ih =>
    obtain ⟨b, w⟩ := cell
    simp only [Memory.wfFrom, Bool.and_eq_true, decide_eq_true_eq] at h
    have hb : b ≠ a := by omega
    simp [Memory.read, hb, ih h.2 (by omega)]

end Sys2Proof.Machine
end

