-- ==== Sys2Proof/Laws/State.lean ====
section
/-! SUPPORT. What every named update of the state leaves in every field, and what reading a register gives after it. -/

namespace Sys2Proof.Machine

/-! ### writeReg -/

@[simp] theorem writeReg_regs (r : RegIx) (v : Word) (s : State) : (writeReg r v s).regs = s.regs.set r v := rfl
@[simp] theorem writeReg_pc (r : RegIx) (v : Word) (s : State) : (writeReg r v s).pc = s.pc := rfl
@[simp] theorem writeReg_z (r : RegIx) (v : Word) (s : State) : (writeReg r v s).z = s.z := rfl
@[simp] theorem writeReg_c (r : RegIx) (v : Word) (s : State) : (writeReg r v s).c = s.c := rfl
@[simp] theorem writeReg_mem (r : RegIx) (v : Word) (s : State) : (writeReg r v s).mem = s.mem := rfl
@[simp] theorem writeReg_status (r : RegIx) (v : Word) (s : State) : (writeReg r v s).status = s.status := rfl
@[simp] theorem writeReg_draws (r : RegIx) (v : Word) (s : State) : (writeReg r v s).draws = s.draws := rfl

/-! ### setZ -/

@[simp] theorem setZ_regs (b : Bool) (s : State) : (setZ b s).regs = s.regs := rfl
@[simp] theorem setZ_pc (b : Bool) (s : State) : (setZ b s).pc = s.pc := rfl
@[simp] theorem setZ_z (b : Bool) (s : State) : (setZ b s).z = b := rfl
@[simp] theorem setZ_c (b : Bool) (s : State) : (setZ b s).c = s.c := rfl
@[simp] theorem setZ_mem (b : Bool) (s : State) : (setZ b s).mem = s.mem := rfl
@[simp] theorem setZ_status (b : Bool) (s : State) : (setZ b s).status = s.status := rfl
@[simp] theorem setZ_draws (b : Bool) (s : State) : (setZ b s).draws = s.draws := rfl
@[simp] theorem readReg_setZ (q : RegIx) (b : Bool) (s : State) :
    readReg q (setZ b s) = readReg q s := rfl

/-! ### setC -/

@[simp] theorem setC_regs (b : Bool) (s : State) : (setC b s).regs = s.regs := rfl
@[simp] theorem setC_pc (b : Bool) (s : State) : (setC b s).pc = s.pc := rfl
@[simp] theorem setC_z (b : Bool) (s : State) : (setC b s).z = s.z := rfl
@[simp] theorem setC_c (b : Bool) (s : State) : (setC b s).c = b := rfl
@[simp] theorem setC_mem (b : Bool) (s : State) : (setC b s).mem = s.mem := rfl
@[simp] theorem setC_status (b : Bool) (s : State) : (setC b s).status = s.status := rfl
@[simp] theorem setC_draws (b : Bool) (s : State) : (setC b s).draws = s.draws := rfl
@[simp] theorem readReg_setC (q : RegIx) (b : Bool) (s : State) :
    readReg q (setC b s) = readReg q s := rfl

/-! ### storeWord -/

@[simp] theorem storeWord_regs (a : Nat) (v : Word) (s : State) : (storeWord a v s).regs = s.regs := rfl
@[simp] theorem storeWord_pc (a : Nat) (v : Word) (s : State) : (storeWord a v s).pc = s.pc := rfl
@[simp] theorem storeWord_z (a : Nat) (v : Word) (s : State) : (storeWord a v s).z = s.z := rfl
@[simp] theorem storeWord_c (a : Nat) (v : Word) (s : State) : (storeWord a v s).c = s.c := rfl
@[simp] theorem storeWord_mem (a : Nat) (v : Word) (s : State) : (storeWord a v s).mem = writeWord s.mem a v := rfl
@[simp] theorem storeWord_status (a : Nat) (v : Word) (s : State) : (storeWord a v s).status = s.status := rfl
@[simp] theorem storeWord_draws (a : Nat) (v : Word) (s : State) : (storeWord a v s).draws = s.draws := rfl
@[simp] theorem readReg_storeWord (q : RegIx) (a : Nat) (v : Word) (s : State) :
    readReg q (storeWord a v s) = readReg q s := rfl

/-! ### setPc -/

@[simp] theorem setPc_regs (p : Word) (s : State) : (setPc p s).regs = s.regs := rfl
@[simp] theorem setPc_pc (p : Word) (s : State) : (setPc p s).pc = p := rfl
@[simp] theorem setPc_z (p : Word) (s : State) : (setPc p s).z = s.z := rfl
@[simp] theorem setPc_c (p : Word) (s : State) : (setPc p s).c = s.c := rfl
@[simp] theorem setPc_mem (p : Word) (s : State) : (setPc p s).mem = s.mem := rfl
@[simp] theorem setPc_status (p : Word) (s : State) : (setPc p s).status = s.status := rfl
@[simp] theorem setPc_draws (p : Word) (s : State) : (setPc p s).draws = s.draws := rfl
@[simp] theorem readReg_setPc (q : RegIx) (p : Word) (s : State) :
    readReg q (setPc p s) = readReg q s := rfl

/-! ### enterFaulted -/

@[simp] theorem enterFaulted_regs (k : FaultKind) (s : State) : (enterFaulted k s).regs = s.regs := rfl
@[simp] theorem enterFaulted_pc (k : FaultKind) (s : State) : (enterFaulted k s).pc = s.pc := rfl
@[simp] theorem enterFaulted_z (k : FaultKind) (s : State) : (enterFaulted k s).z = s.z := rfl
@[simp] theorem enterFaulted_c (k : FaultKind) (s : State) : (enterFaulted k s).c = s.c := rfl
@[simp] theorem enterFaulted_mem (k : FaultKind) (s : State) : (enterFaulted k s).mem = s.mem := rfl
@[simp] theorem enterFaulted_status (k : FaultKind) (s : State) : (enterFaulted k s).status = .faulted k := rfl
@[simp] theorem enterFaulted_draws (k : FaultKind) (s : State) : (enterFaulted k s).draws = s.draws := rfl
@[simp] theorem readReg_enterFaulted (q : RegIx) (k : FaultKind) (s : State) :
    readReg q (enterFaulted k s) = readReg q s := rfl

/-! ### haltMachine -/

@[simp] theorem haltMachine_regs (s : State) : (haltMachine s).regs = s.regs := rfl
@[simp] theorem haltMachine_pc (s : State) : (haltMachine s).pc = Config.freeWord s.draws := rfl
@[simp] theorem haltMachine_z (s : State) : (haltMachine s).z = s.z := rfl
@[simp] theorem haltMachine_c (s : State) : (haltMachine s).c = s.c := rfl
@[simp] theorem haltMachine_mem (s : State) : (haltMachine s).mem = s.mem := rfl
@[simp] theorem haltMachine_status (s : State) : (haltMachine s).status = .halted := rfl
@[simp] theorem haltMachine_draws (s : State) : (haltMachine s).draws = s.draws + 1 := rfl
@[simp] theorem readReg_haltMachine (q : RegIx) (s : State) :
    readReg q (haltMachine s) = readReg q s := rfl

/-! ### writeResult -/

@[simp] theorem writeResult_regs (r : RegIx) (v : Word) (s : State) : (writeResult r v s).regs = s.regs.set r v := rfl
@[simp] theorem writeResult_pc (r : RegIx) (v : Word) (s : State) : (writeResult r v s).pc = s.pc := rfl
@[simp] theorem writeResult_z (r : RegIx) (v : Word) (s : State) : (writeResult r v s).z = zeroFlag v := rfl
@[simp] theorem writeResult_c (r : RegIx) (v : Word) (s : State) : (writeResult r v s).c = s.c := rfl
@[simp] theorem writeResult_mem (r : RegIx) (v : Word) (s : State) : (writeResult r v s).mem = s.mem := rfl
@[simp] theorem writeResult_status (r : RegIx) (v : Word) (s : State) : (writeResult r v s).status = s.status := rfl
@[simp] theorem writeResult_draws (r : RegIx) (v : Word) (s : State) : (writeResult r v s).draws = s.draws := rfl

/-! ### Registers after a write -/

/-- A register reads what was written to it last (10_state.md R12). -/
@[simp] theorem readReg_writeReg_same (r : RegIx) (v : Word) (s : State) :
    readReg r (writeReg r v s) = v := by
  simp [readReg, writeReg]

/-- A write leaves every other register alone (10_state.md R12). -/
theorem readReg_writeReg_other (q r : RegIx) (v : Word) (s : State) (h : q ≠ r) :
    readReg q (writeReg r v s) = readReg q s := by
  have hv : r.val ≠ q.val := fun e => h (Fin.ext e.symm)
  simp [readReg, writeReg, hv]

/-- Both cases of reading a register after a write. -/
theorem readReg_writeReg (q r : RegIx) (v : Word) (s : State) :
    readReg q (writeReg r v s) = if q = r then v else readReg q s := by
  by_cases h : q = r
  · subst h; simp
  · simp [h, readReg_writeReg_other q r v s h]

@[simp] theorem readReg_writeResult_same (r : RegIx) (v : Word) (s : State) :
    readReg r (writeResult r v s) = v := readReg_writeReg_same r v s

theorem readReg_writeResult_other (q r : RegIx) (v : Word) (s : State) (h : q ≠ r) :
    readReg q (writeResult r v s) = readReg q s := readReg_writeReg_other q r v s h

/-- Two states with the same registers as read have the same register file. -/
theorem regs_ext {s t : State} (h : ∀ r, readReg r s = readReg r t) : s.regs = t.regs := by
  refine Vector.ext fun k hk => ?_
  simpa [readReg] using h ⟨k, hk⟩

end Sys2Proof.Machine
end

