-- ==== Sys2Proof/Laws/Ops.lean ====
section
/-! SUPPORT. Each shared operation's one lemma: everything it can answer. -/

namespace Sys2Proof.Machine

/-- The sequential advance answers a next state exactly when the next address fits in the pc (10_state.md R15). -/
theorem advance_eq_next_iff {len : Nat} {s t : State} :
    advance len s = .next t ↔
      s.pc.toNat + len ≤ 0xFFFF ∧ t = setPc (BitVec.ofNat 16 (s.pc.toNat + len)) s := by
  simp only [advance, raise]
  split
  · next h => simp; omega
  · next h =>
    constructor
    · intro e; cases e; exact ⟨by omega, rfl⟩
    · rintro ⟨_, rfl⟩; rfl

/-- Where the next address fits, the advance is a next state. -/
theorem advance_of_le {len : Nat} {s : State} (h : s.pc.toNat + len ≤ 0xFFFF) :
    advance len s = .next (setPc (BitVec.ofNat 16 (s.pc.toNat + len)) s) :=
  advance_eq_next_iff.mpr ⟨h, rfl⟩

/-- The pc after an advance, as a number (10_state.md R15). -/
theorem toNat_nextPc {pc : Word} {len : Nat} (h : pc.toNat + len ≤ 0xFFFF) :
    (BitVec.ofNat 16 (pc.toNat + len)).toNat = pc.toNat + len := by
  rw [BitVec.toNat_ofNat]
  omega

/-- The only stop of the advance is `PcWrap`, where the next address does not fit. -/
theorem advance_of_gt {len : Nat} {s : State} (h : s.pc.toNat + len > 0xFFFF) :
    advance len s = .fault (.pcWrap s.pc) := by
  simp only [advance, raise, if_pos h]

theorem effectiveAddress_top : effectiveAddress 0xFFFF = none := by decide

theorem effectiveAddress_of_ne {address : Word} (h : address ≠ 0xFFFF) :
    effectiveAddress address = some address.toNat :=
  if_neg h

/-- A legal word address is the operand as it stands, and is not 0xFFFF (20_memory.md R34). -/
theorem effectiveAddress_eq_some_iff {address : Word} {a : Nat} :
    effectiveAddress address = some a ↔ address ≠ 0xFFFF ∧ a = address.toNat := by
  by_cases h : address = 0xFFFF
  · subst h
    rw [effectiveAddress_top]
    exact ⟨fun e => (Option.some_ne_none _ e.symm).elim, fun e => (e.1 rfl).elim⟩
  · rw [effectiveAddress_of_ne h, Option.some.injEq]
    exact ⟨fun e => ⟨h, e.symm⟩, fun e => e.2.symm⟩

theorem effectiveAddress_lt {address : Word} {a : Nat} (h : effectiveAddress address = some a) :
    a + 1 < Config.memSize := by
  obtain ⟨hne, rfl⟩ := effectiveAddress_eq_some_iff.mp h
  have h1 := address.isLt
  have h2 : address.toNat ≠ 0xFFFF := fun e => hne (BitVec.eq_of_toNat_eq (by simpa using e))
  simp only [Config.memSize]
  omega

/-- A memory operand either has a place, where the body runs, or the instruction raises `DataWrap`. -/
theorem withWordOperand_eq (address : Word) (body : Nat → Result) :
    withWordOperand address body =
      if address = 0xFFFF then .fault (.dataWrap address) else body address.toNat := by
  unfold withWordOperand raise
  by_cases h : address = 0xFFFF
  · rw [if_pos h, h, effectiveAddress_top]
  · rw [if_neg h, effectiveAddress_of_ne h]

/-- A conditional jump goes to its target or advances (43_control_flow.md R95). -/
theorem jumpIf_eq (taken : Bool) (len : Nat) (address : Word) (s : State) :
    jumpIf taken len address s = if taken then .next (setPc address s) else advance len s := by
  cases taken <;> rfl

/-- A step of a running machine is the fetched instruction's meaning, or the fetch's fault. -/
theorem step_running {s : State} (h : s.status = .running) :
    step s = match fetchDecode s with
      | .instr i => exec i s
      | .stop f => .fault f := by
  unfold step
  rw [h]
  rfl

/-- A machine that is not running takes no step (10_state.md R18). -/
theorem step_stopped {s : State} (h : s.status ≠ .running) :
    ∃ f, step s = .fault f ∧ f.kind = none := by
  unfold step
  cases hs : s.status with
  | running => exact absurd hs h
  | halted => exact ⟨_, rfl, rfl⟩
  | faulted k => exact ⟨_, rfl, rfl⟩

/-- Fetching an undefined opcode byte (30_encoding.md R58). -/
theorem fetchDecode_illegal {s : State} (h : opcodeLength (s.mem.read s.pc.toNat) = none) :
    fetchDecode s = .stop (.illegalOpcode s.pc (s.mem.read s.pc.toNat)) := by
  simp only [fetchDecode, h]

/-- Fetching an instruction that does not fit below 0x10000 (20_memory.md R35). -/
theorem fetchDecode_wrap {s : State} {len : Nat} (h : opcodeLength (s.mem.read s.pc.toNat) = some len)
    (hp : s.pc.toNat + len - 1 > 0xFFFF) : fetchDecode s = .stop (.fetchWrap s.pc) := by
  simp only [fetchDecode, h, if_pos hp]

/-- Fetching an instruction that fits gives what its bytes decode to (30_encoding.md R57). -/
theorem fetchDecode_fits {s : State} {len : Nat} (h : opcodeLength (s.mem.read s.pc.toNat) = some len)
    (hp : s.pc.toNat + len - 1 ≤ 0xFFFF) :
    fetchDecode s = match decode (s.mem.bytes s.pc.toNat len) with
      | .ok i _ => .instr i
      | .illegalOpcode b => .stop (.illegalOpcode s.pc b)
      | .truncated => .stop (.fetchWrap s.pc)
      | .invalidRegister => .stop (.invalidRegister s.pc) := by
  have hn : ¬ (s.pc.toNat + len - 1 > 0xFFFF) := by omega
  cases hd : decode (s.mem.bytes s.pc.toNat len) <;> simp only [fetchDecode, h, if_neg hn, hd]

/-- Everything fetching can answer (30_encoding.md R57): the decoded instruction, or one of the first three faults. -/
theorem fetchDecode_cases (s : State) :
    (∃ i rest len, fetchDecode s = .instr i ∧ opcodeLength (s.mem.read s.pc.toNat) = some len ∧
      s.pc.toNat + len - 1 ≤ 0xFFFF ∧ decode (s.mem.bytes s.pc.toNat len) = .ok i rest) ∨
    (∃ b, fetchDecode s = .stop (.illegalOpcode s.pc b)) ∨
    fetchDecode s = .stop (.fetchWrap s.pc) ∨
    fetchDecode s = .stop (.invalidRegister s.pc) := by
  cases hlen : opcodeLength (s.mem.read s.pc.toNat) with
  | none => exact .inr (.inl ⟨s.mem.read s.pc.toNat, by simp only [fetchDecode, hlen]⟩)
  | some len =>
    by_cases hfit : s.pc.toNat + len - 1 > 0xFFFF
    · exact .inr (.inr (.inl (by simp only [fetchDecode, hlen, if_pos hfit])))
    · cases hd : decode (s.mem.bytes s.pc.toNat len) with
      | ok i rest =>
        exact .inl ⟨i, rest, len, by simp only [fetchDecode, hlen, if_neg hfit, hd], rfl, by omega, hd⟩
      | illegalOpcode b => exact .inr (.inl ⟨b, by simp only [fetchDecode, hlen, if_neg hfit, hd]⟩)
      | truncated => exact .inr (.inr (.inl (by simp only [fetchDecode, hlen, if_neg hfit, hd])))
      | invalidRegister => exact .inr (.inr (.inr (by simp only [fetchDecode, hlen, if_neg hfit, hd])))

end Sys2Proof.Machine
end

