-- ==== Sys2Proof/Laws/PerInstr.lean ====
section
/-! SUPPORT. A statement about every instruction as syntax, one lemma per constructor: the encoding begins with the
instruction's opcode byte, and the length that byte selects (30_encoding.md R51) is the number of bytes encoded. -/

/-- The instruction's encoding has the shape its opcode byte announces (30_encoding.md R50, R51). -/
def Sys2Proof.Laws.EncodingShape.Statement (i : Sys2Proof.Instr) : Prop :=
  ∃ operands, Sys2Proof.encode i = i.opcode.byte :: operands ∧
    Sys2Proof.opcodeLength i.opcode.byte = some (operands.length + 1)

namespace Sys2Proof.Laws.EncodingShape

theorem movi (reg : RegIx) (imm : Word) : Statement (.movi reg imm) := ⟨_, rfl, rfl⟩

theorem mov (dest src : RegIx) : Statement (.mov dest src) := ⟨_, rfl, rfl⟩

theorem load (reg : RegIx) (address : Word) : Statement (.load reg address) := ⟨_, rfl, rfl⟩

theorem store (address : Word) (reg : RegIx) : Statement (.store address reg) := ⟨_, rfl, rfl⟩

theorem add (dest src : RegIx) : Statement (.add dest src) := ⟨_, rfl, rfl⟩

theorem sub (dest src : RegIx) : Statement (.sub dest src) := ⟨_, rfl, rfl⟩

theorem cmp (regA regB : RegIx) : Statement (.cmp regA regB) := ⟨_, rfl, rfl⟩

theorem jmp (address : Word) : Statement (.jmp address) := ⟨_, rfl, rfl⟩

theorem jz (address : Word) : Statement (.jz address) := ⟨_, rfl, rfl⟩

theorem jnz (address : Word) : Statement (.jnz address) := ⟨_, rfl, rfl⟩

theorem halt : Statement .halt := ⟨_, rfl, rfl⟩

end Sys2Proof.Laws.EncodingShape
end

