-- ==== Sys2Proof/Machine/Assembly.lean ====
section
/-! DEFINITION. The spec's notation for instructions (30_encoding.md R62): mnemonic, then the operands in the order of the
instruction's bytes. It is notation only (D17): nothing the machine does depends on it. -/

namespace Sys2Proof.Machine

/-- `Rn` with decimal `n` (R62). -/
def registerName (r : RegIx) : String := "R" ++ Nat.repr r.val

/-- `imm16` and `addr16`, written in decimal (R62). -/
def numeral (w : Word) : String := Nat.repr w.toNat

/-- A memory operand stands in square brackets (R62). -/
def memoryOperand (address : Word) : String := "[" ++ numeral address ++ "]"

/-- The instruction in the spec's syntax (R62). -/
def assemblyText : Instr → String
  | .movi reg imm => "MOVI " ++ registerName reg ++ ", " ++ numeral imm
  | .mov dest src => "MOV " ++ registerName dest ++ ", " ++ registerName src
  | .load reg address => "LOAD " ++ registerName reg ++ ", " ++ memoryOperand address
  | .store address reg => "STORE " ++ memoryOperand address ++ ", " ++ registerName reg
  | .add dest src => "ADD " ++ registerName dest ++ ", " ++ registerName src
  | .sub dest src => "SUB " ++ registerName dest ++ ", " ++ registerName src
  | .cmp regA regB => "CMP " ++ registerName regA ++ ", " ++ registerName regB
  | .jmp address => "JMP " ++ numeral address
  | .jz address => "JZ " ++ numeral address
  | .jnz address => "JNZ " ++ numeral address
  | .halt => "HALT"

end Sys2Proof.Machine
end

