-- ==== Sys2Proof/Tests/Slice0.lean ====
section
/-! SUPPORT. The model's own tests. Expected values come from the spec: S, E, M, A, B, K, J, H and T are the rows of
95_test_vectors.md. A `witness_` theorem shows a concrete case that meets every hypothesis of the statement it names. -/

open Sys2Proof Sys2Proof.Machine

namespace Sys2Proof.Tests

/-- A running machine at `pc` with bytes there, registers set in order, and the flags. -/
def machine (pc : Word) (bytes : List Byte) (rs : List (RegIx × Word) := []) (z c : Bool := false) : State :=
  rs.foldl (fun s r => writeReg r.1 r.2 s)
    { State.reset with pc := pc, mem := placeBytes [] pc.toNat bytes, z := z, c := c }

/-- More bytes of memory. -/
def withBytes (a : Nat) (bytes : List Byte) (s : State) : State := { s with mem := placeBytes s.mem a bytes }

/-- The machine after one step. -/
def after (s : State) : State := stateAfter s (step s)

/-- The fault a step stops with, if it stops with one. -/
def faultOf (s : State) : Option Fault :=
  match step s with
  | .next _ => none
  | .fault f => some f
  | .refused _ => none

/-! ### WellFormed: an ill-formed term for each check -/

theorem test_wellFormed_refuses_load_at_top : WellFormed (.load 3 0xFFFF) = false := by decide
theorem test_wellFormed_refuses_store_at_top : WellFormed (.store 0xFFFF 3) = false := by decide
theorem test_wellFormed_accepts_highest_word : WellFormed (.load 0 0xFFFE) = true := by decide
theorem test_wellFormed_accepts_jump_to_top : WellFormed (.jmp 0xFFFF) = true := by decide
/-- R54: the check of a register byte is the decoder's; 16 names no register. -/
theorem test_register_byte_16_names_none : registerOfByte 16 = none := by decide

/-! ### Decoding: words written out from the encodings (R52, R56; S1 to S11, E1 to E16) -/

theorem test_decode_movi : decode [0x01, 0x03, 0x12, 0x34] = .ok (.movi 3 0x1234) [] := by decide
theorem test_decode_mov : decode [0x02, 0x0F, 0x00] = .ok (.mov 15 0) [] := by decide
theorem test_decode_load : decode [0x03, 0x0A, 0x00, 0xFF] = .ok (.load 10 0x00FF) [] := by decide
theorem test_decode_store : decode [0x04, 0x00, 0xFF, 0x0A] = .ok (.store 0x00FF 10) [] := by decide
theorem test_decode_add : decode [0x05, 0x02, 0x03] = .ok (.add 2 3) [] := by decide
theorem test_decode_sub : decode [0x06, 0x01, 0x04] = .ok (.sub 1 4) [] := by decide
theorem test_decode_cmp : decode [0x07, 0x02, 0x05] = .ok (.cmp 2 5) [] := by decide
theorem test_decode_jmp : decode [0x08, 0x10, 0x20] = .ok (.jmp 0x1020) [] := by decide
theorem test_decode_jz : decode [0x09, 0x00, 0x20] = .ok (.jz 0x0020) [] := by decide
theorem test_decode_jnz : decode [0x0A, 0x00, 0x10] = .ok (.jnz 0x0010) [] := by decide
theorem test_decode_halt_leaves_the_rest : decode [0xFF, 0x01] = .ok .halt [0x01] := by decide
theorem test_decode_store_order_E6 : decode [0x04, 0x0A, 0x00, 0xFF] = .invalidRegister := by decide
theorem test_decode_undefined_E10_E11_E12 :
    decode [0x00] = .illegalOpcode 0x00 ∧ decode [0x0B] = .illegalOpcode 0x0B ∧
      decode [0xFE] = .illegalOpcode 0xFE := by decide
theorem test_decode_bad_register_E13_E14_E15 :
    decode [0x01, 0x10, 0x00, 0x00] = .invalidRegister ∧ decode [0x02, 0x03, 0xF3] = .invalidRegister ∧
      decode [0x05, 0x80, 0x01] = .invalidRegister := by decide
theorem test_decode_truncated : decode [0x01, 0x10, 0x00] = .truncated := by decide
theorem test_encode_store : encode (.store 0x1234 7) = [0x04, 0x12, 0x34, 0x07] := by decide
/-- The opcode table's `match` with fields put in: bit 0 is the last byte's lowest. -/
theorem test_decodeTableWord :
    decodeTableWord 32 0x04123407 = some (.store 0x1234 7) ∧ decodeTableWord 24 0x060104 = some (.sub 1 4) ∧
      decodeTableWord 8 0xFF = some .halt ∧ decodeTableWord 24 0x00F000 = none := by decide

/-- R62: STORE is written address first, LOAD register first. -/
theorem test_assemblyText :
    assemblyText (.store 256 7) = "STORE [256], R7" ∧ assemblyText (.load 15 10) = "LOAD R15, [10]" := by decide

/-! ### One step of each instruction -/

theorem test_movi_S1 :
    let t := after (machine 0 [0x01, 0x03, 0x12, 0x34] (c := true))
    readReg 3 t = 0x1234 ∧ t.z = false ∧ t.c = true ∧ t.pc = 4 := by decide
theorem test_movi_zero_M1 :
    let t := after (machine 0 [0x01, 0x00, 0x00, 0x00] (c := true))
    readReg 0 t = 0 ∧ t.z = true ∧ t.c = true := by decide
theorem test_mov_M4 :
    let t := after (machine 0 [0x02, 0x01, 0x02] [(1, 0x1111), (2, 0)] (c := true))
    readReg 1 t = 0 ∧ t.z = true ∧ t.c = true ∧ t.pc = 3 := by decide
theorem test_mov_same_register_M5 :
    let t := after (machine 0 [0x02, 0x03, 0x03] [(3, 0x0042)] (z := true))
    readReg 3 t = 0x0042 ∧ t.z = false := by decide
theorem test_load_odd_M8 :
    let t := after (withBytes 0x0101 [0x34, 0x56] (machine 0 [0x03, 0x01, 0x01, 0x01]))
    readReg 1 t = 0x3456 ∧ t.z = false ∧ t.pc = 4 := by decide
theorem test_load_highest_M11 :
    let t := after (withBytes 0xFFFE [0xAA, 0x55] (machine 0 [0x03, 0x00, 0xFF, 0xFE]))
    readReg 0 t = 0xAA55 := by decide
theorem test_store_M15 :
    let t := after (withBytes 0x0101 [0xFF, 0xFF] (machine 0 [0x04, 0x01, 0x01, 0x01] [(1, 0)]))
    t.mem.read 0x0101 = 0 ∧ t.mem.read 0x0102 = 0 ∧ t.z = false := by decide
theorem test_store_highest_M16 :
    let t := after (machine 0 [0x04, 0xFF, 0xFE, 0x03] [(3, 0x1234)] (z := true) (c := true))
    t.mem.read 0xFFFE = 0x12 ∧ t.mem.read 0xFFFF = 0x34 ∧ t.z = true ∧ t.c = true := by decide
theorem test_add_A5 :
    let t := after (machine 0 [0x05, 0x02, 0x03] [(2, 0x8000), (3, 0x8000)])
    readReg 2 t = 0 ∧ t.z = true ∧ t.c = true ∧ t.pc = 3 := by decide
theorem test_add_same_register_A12 :
    let t := after (machine 0 [0x05, 0x02, 0x02] [(2, 0xC000)])
    readReg 2 t = 0x8000 ∧ t.z = false ∧ t.c = true := by decide
theorem test_sub_B3 :
    let t := after (machine 0 [0x06, 0x01, 0x04] [(1, 0x0003), (4, 0x0005)])
    readReg 1 t = 0xFFFE ∧ readReg 4 t = 5 ∧ t.z = false ∧ t.c = true := by decide
theorem test_sub_B6 :
    let t := after (machine 0 [0x06, 0x01, 0x04] [(1, 0x8000), (4, 0x0001)] (c := true))
    readReg 1 t = 0x7FFF ∧ t.z = false ∧ t.c = false := by decide
theorem test_cmp_K1 :
    let t := after (machine 0 [0x07, 0x02, 0x05] [(2, 0x0003), (5, 0x0004)])
    readReg 2 t = 3 ∧ readReg 5 t = 4 ∧ t.z = false ∧ t.c = true := by decide
theorem test_cmp_K5 :
    let t := after (machine 0 [0x07, 0x02, 0x05] [(2, 0x8000), (5, 0x0001)] (c := true))
    t.z = false ∧ t.c = false := by decide
theorem test_jmp_at_top_J11 : (after (machine 0xFFFD [0x08, 0x01, 0x00])).pc = 0x0100 := by decide
theorem test_jz_J5_J6 :
    (after (machine 0x10 [0x09, 0x00, 0x20] (z := true))).pc = 0x20 ∧
      (after (machine 0x10 [0x09, 0x00, 0x20])).pc = 0x13 := by decide
theorem test_jnz_J7_J8 :
    (after (machine 0x20 [0x0A, 0x00, 0x10])).pc = 0x10 ∧
      (after (machine 0x20 [0x0A, 0x00, 0x10] (z := true))).pc = 0x23 := by decide
theorem test_halt_at_top_H2 :
    let t := after (machine 0xFFFF [0xFF] [(3, 7)] (z := true))
    t.status = .halted ∧ readReg 3 t = 7 ∧ t.z = true := by decide

/-! ### Faults (T1 to T9, M12, M17, J13) -/

theorem test_fault_dataWrap_M12_M17 :
    faultOf (machine 0 [0x03, 0x00, 0xFF, 0xFF]) = some (.dataWrap 0xFFFF) ∧
      faultOf (machine 0 [0x04, 0xFF, 0xFF, 0x03]) = some (.dataWrap 0xFFFF) := by decide
theorem test_fault_pcWrap_T1_T3 :
    faultOf (machine 0xFFFC [0x01, 0x00, 0x00, 0x01]) = some (.pcWrap 0xFFFC) ∧
      faultOf (machine 0xFFFD [0x05, 0x01, 0x02]) = some (.pcWrap 0xFFFD) := by decide
theorem test_fault_pcWrap_J12_J13 :
    faultOf (machine 0xFFFD [0x09, 0x00, 0x10] (z := true)) = none ∧
      faultOf (machine 0xFFFD [0x09, 0x00, 0x10]) = some (.pcWrap 0xFFFD) := by decide
theorem test_fault_fetchWrap_T2_T4_T5 :
    faultOf (machine 0xFFFD [0x01, 0x00, 0x00]) = some (.fetchWrap 0xFFFD) ∧
      faultOf (machine 0xFFFE [0x05, 0x01]) = some (.fetchWrap 0xFFFE) ∧
      faultOf (machine 0xFFFF [0x08]) = some (.fetchWrap 0xFFFF) := by decide
theorem test_fault_priority_T6_T7_T8_T9 :
    faultOf (machine 0xFFFC [0x03, 0x10, 0xFF, 0xFF]) = some (.invalidRegister 0xFFFC) ∧
      faultOf (machine 0xFFFC [0x03, 0x01, 0xFF, 0xFF]) = some (.dataWrap 0xFFFF) ∧
      faultOf (machine 0xFFFF [0x00]) = some (.illegalOpcode 0xFFFF 0x00) ∧
      faultOf (machine 0 [0x04, 0xFF, 0xFF, 0x10]) = some (.invalidRegister 0) := by decide
theorem test_fault_is_terminal :
    (after (after (machine 0 [0x00]))).status = .faulted .illegalOpcode := by decide
/-- R110: the code numbers. -/
theorem test_fault_codes :
    [FaultKind.illegalOpcode, .fetchWrap, .invalidRegister, .dataWrap, .pcWrap].map FaultKind.code
      = [1, 2, 3, 4, 5] := by decide
/-- A table word placed at the pc of the reset state is what the first step runs. -/
theorem test_withFetchWord :
    readReg 3 (after (State.reset.withFetchWord 32 0x01031234)) = 0x1234 := by decide
/-- P4, second step: the STORE overwrites the immediate of the instruction after it. -/
theorem test_self_modifying_P4 :
    let s := machine 0 [0x04, 0x00, 0x06, 0x00, 0x01, 0x01, 0x00, 0x00] [(0, 0xBEEF)]
    readReg 1 (after (after s)) = 0xBEEF := by decide

/-! ### Witnesses: every hypothesis of a statement met at once, at the boundary values of its clauses -/

theorem witness_WhatDecodesIsAnEncoding : decode [0x02, 0x0F, 0x00, 0xFF] = .ok (.mov 15 0) [0xFF] := by decide
theorem witness_DecodingIsTheTablesMaskAndMatch :
    [(0x04 : Byte), 0xFF, 0xFF, 0x0F].length = Opcode.store.length := by decide
theorem witness_LengthIsAFunctionOfTheOpcodeByte :
    decode [0x04, 0, 0, 15] = .ok (.store 0 15) [] ∧ decode [0x0A, 0, 0] = .ok (.jnz 0) [] ∧
      decode [0xFF] = .ok .halt [] ∧ opcodeLength 0x0B = none := by decide
theorem witness_OperandBytesStandWhereTheFormatsSay :
    (0xFF00 : Word).toNat = (0xFF : Byte).toNat * 256 + (0x00 : Byte).toNat := by decide
theorem witness_MemReadIsBigEndian :
    (1 ≤ 1 ∧ 0xFFFF + 1 - 1 ≤ 0xFFFF) ∧ (1 ≤ 2 ∧ 0xFFFE + 2 - 1 ≤ 0xFFFF) := by decide
theorem witness_MemWriteWritesHighThenLowByte :
    0xFFFE + 1 ≤ 0xFFFF ∧ (∃ t, exec (.store 0xFFFE 3) State.reset = .next t) ∧
      ∃ t, exec (.movi 3 1) State.reset = .next t := ⟨by decide, ⟨_, rfl⟩, ⟨_, rfl⟩⟩
theorem witness_OverlappingStoresComposeByByte : 0xFFFD + 2 ≤ 0xFFFF := by decide
theorem witness_MisalignedAccessesAreAllowed :
    ((0xFFFD : Word).toNat + 1 ≤ 0xFFFF ∧ (machine 0xFFFB []).pc.toNat + 4 ≤ 0xFFFF) ∧
      (0xFFFE : Word).toNat + 1 ≤ 0xFFFF := by decide
theorem witness_StoredWordLoadsBack :
    ∃ t u, exec (.store 0xFFFE 1) (machine 0 [] [(1, 0xABCD)]) = .next t ∧ exec (.load 2 0xFFFE) t = .next u :=
  ⟨_, _, rfl, rfl⟩
theorem witness_CanonicalMemoriesReadingAlikeAreEqual :
    Memory.wf [(0, 1), (0xFFFF, 2)] = true ∧ ∀ a, a < 65536 →
      Memory.read [(0, 1), (0xFFFF, 2)] a = Memory.read [(0, 1), (0xFFFF, 2)] a := ⟨by decide, fun _ _ => rfl⟩
/-- MOVI: the highest pc from which a 4-byte instruction completes. -/
theorem witness_MoviLoadsItsImmediate : (machine 0xFFFB []).pc.toNat + 4 ≤ 0xFFFF := by decide
/-- MOV, ADD, SUB, CMP and the idioms: the highest pc from which a 3-byte instruction completes. -/
theorem witness_MovCopiesARegister : (machine 0xFFFC []).pc.toNat + 3 ≤ 0xFFFF := by decide
theorem witness_LoadReadsABigEndianWord :
    (0xFFFE : Word) ≠ 0xFFFF ∧ (machine 0xFFFB []).pc.toNat + 4 ≤ 0xFFFF := by decide
theorem witness_StoreWritesABigEndianWord :
    (0xFFFE : Word) ≠ 0xFFFF ∧ (machine 0xFFFB []).pc.toNat + 4 ≤ 0xFFFF ∧
      effectiveAddress 0xFFFE = some 0xFFFE := by decide
theorem witness_AddWrapsAndCarries : (machine 0xFFFC [] [(1, 0xFFFF)]).pc.toNat + 3 ≤ 0xFFFF := by decide
theorem witness_SubWrapsAndBorrows : (machine 0xFFFC [] [(1, 0xFFFF)]).pc.toNat + 3 ≤ 0xFFFF := by decide
theorem witness_CmpSetsFlagsOnly : (machine 0xFFFC [] [(1, 0xFFFF)]).pc.toNat + 3 ≤ 0xFFFF := by decide
theorem witness_CmpIsSubWithoutTheResult : (machine 0xFFFC [] [(1, 0xFFFF)]).pc.toNat + 3 ≤ 0xFFFF := by decide
theorem witness_OneRegisterIdioms : (machine 0xFFFC [] [(1, 0x8000)]).pc.toNat + 3 ≤ 0xFFFF := by decide
theorem witness_JumpsChangeThePcOnly :
    (machine 0xFFFC [] (z := true)).z = true ∧ (machine 0xFFFC []).z = false ∧
      (machine 0xFFFC []).pc.toNat + 3 ≤ 0xFFFF := by decide
theorem witness_JumpStepsGoToTheirAbsoluteTarget_taken :
    let jmp := machine 0xFFFD [0x08, 0x12, 0x34]
    let jz := machine 0xFFFD [0x09, 0x12, 0x34] (z := true)
    let jnz := machine 0xFFFD [0x0A, 0x12, 0x34]
    ∀ s ∈ [jmp, jz, jnz], s.status = .running ∧ s.pc.toNat + 2 ≤ 0xFFFF ∧
      (0x1234 : Word).toNat =
        (s.mem.read (s.pc.toNat + 1)).toNat * 256 + (s.mem.read (s.pc.toNat + 2)).toNat ∧
      (s.mem.read s.pc.toNat = 0x08 ∨ (s.mem.read s.pc.toNat = 0x09 ∧ s.z = true) ∨
        (s.mem.read s.pc.toNat = 0x0A ∧ s.z = false)) := by decide
theorem witness_JumpStepsGoToTheirAbsoluteTarget_not_taken :
    let jz := machine 0xFFFC [0x09, 0x12, 0x34]
    let jnz := machine 0xFFFC [0x0A, 0x12, 0x34] (z := true)
    ∀ s ∈ [jz, jnz], s.status = .running ∧ s.pc.toNat + 3 ≤ 0xFFFF ∧
      (0x1234 : Word).toNat =
        (s.mem.read (s.pc.toNat + 1)).toNat * 256 + (s.mem.read (s.pc.toNat + 2)).toNat ∧
      ((s.mem.read s.pc.toNat = 0x09 ∧ s.z = false) ∨
        (s.mem.read s.pc.toNat = 0x0A ∧ s.z = true)) := by decide
theorem witness_HaltByteEndsTheRun :
    let s := machine 0xFFFF [0xFF]
    s.status = .running ∧ s.mem.read s.pc.toNat = 0xFF := by decide
theorem witness_JumpToItselfNeverEnds :
    let s := machine 0x1234 [0x08, 0x12, 0x34]
    s.status = .running ∧ s.pc.toNat + 2 ≤ 0xFFFF ∧ s.mem.read s.pc.toNat = 0x08 ∧
      s.pc.toNat =
        (s.mem.read (s.pc.toNat + 1)).toNat * 256 + (s.mem.read (s.pc.toNat + 2)).toNat := by decide
/-- The frames: a next state of a register write, of a store, of a jump and of HALT. -/
theorem witness_OnlyTheDestinationRegisterChanges :
    (∃ t, exec (.movi 3 1) State.reset = .next t) ∧ (0 : RegIx) ∉ regsWritten (.movi 3 1) := ⟨⟨_, rfl⟩, by decide⟩
theorem witness_OnlyTheStoredWordChanges :
    (∃ t, exec (.store 0xFFFE 3) State.reset = .next t) ∧ storedWord (.store 0xFFFE 3) = some 0xFFFE ∧
      (∃ t, exec (.cmp 1 2) State.reset = .next t) ∧ storedWord (.cmp 1 2) = none :=
  ⟨⟨_, rfl⟩, by decide, ⟨_, rfl⟩, by decide⟩
theorem witness_OnlyTheNamedFlagsChange :
    (∃ t, exec (.jz 9) State.reset = .next t) ∧ writesZ (.jz 9) = false ∧ writesC (.jz 9) = false :=
  ⟨⟨_, rfl⟩, by decide, by decide⟩
theorem witness_OnlyHaltChangesTheRunStatus :
    (∃ t, exec .halt State.reset = .next t) ∧ (∃ t, exec (.jmp 9) State.reset = .next t) ∧
      Instr.jmp 9 ≠ .halt := ⟨⟨_, rfl⟩, ⟨_, rfl⟩, by decide⟩
theorem witness_PcAdvancesUnlessAJumpIsTaken :
    (∃ t, exec (.jnz 9) State.reset = .next t) ∧ jumpTarget (.jnz 9) State.reset = some 9 ∧
      (∃ t, exec (.jz 9) State.reset = .next t) ∧ jumpTarget (.jz 9) State.reset = none :=
  ⟨⟨_, rfl⟩, by decide, ⟨_, rfl⟩, by decide⟩
theorem witness_RegistersNotReadHaveNoInfluence :
    ((3 : RegIx) ∉ regsRead (.movi 3 1) ∧ (∃ t, exec (.movi 3 1) State.reset = .next t) ∧
      Instr.movi 3 1 ≠ .halt ∧ 3 ∈ regsWritten (.movi 3 1)) ∧
      ((3 : RegIx) ∉ regsRead .halt ∧ (∃ t, exec .halt State.reset = .next t) ∧ 3 ∉ regsWritten .halt) ∧
      ((3 : RegIx) ∉ regsRead (.load 3 0xFFFF) ∧
        exec (.load 3 0xFFFF) State.reset = .fault (.dataWrap 0xFFFF)) :=
  ⟨⟨by decide, ⟨_, rfl⟩, by decide, by decide⟩, ⟨by decide, ⟨_, rfl⟩, by decide⟩, by decide, rfl⟩
theorem witness_FlagsTellTheUnsignedOrder :
    (∃ t, exec (.cmp 1 2) (machine 0 [] [(1, 0x8000), (2, 1)]) = .next t) ∧
      ∃ t, exec (.sub 1 2) (machine 0 [] [(1, 1), (2, 0x8000)]) = .next t := ⟨⟨_, rfl⟩, ⟨_, rfl⟩⟩
theorem witness_ExecutionStopsOnlyOnDataWrapOrPcWrap :
    WellFormed (.store 0xFFFF 0) = false ∧
      (WellFormed (.jz 9) = true ∧ Instr.jz 9 ≠ .halt ∧ jumpTarget (.jz 9) (machine 0xFFFD []) = none ∧
        (machine 0xFFFD []).pc.toNat + (encode (.jz 9)).length > 0xFFFF) ∧
      (WellFormed (.load 0 0xFFFE) = true ∧
        (machine 0xFFFB []).pc.toNat + (encode (.load 0 0xFFFE)).length ≤ 0xFFFF) ∧
      (WellFormed (.jz 9) = true ∧ jumpTarget (.jz 9) (machine 0xFFFD [] (z := true)) ≠ none) := by decide
theorem witness_UndefinedOpcodesFault :
    ∀ s ∈ [machine 0xFFFF [0x00], machine 5 [0x0B], machine 5 [0xFE]], s.status = .running ∧
      (s.mem.read s.pc.toNat = 0x00 ∨
        (0x0B ≤ (s.mem.read s.pc.toNat).toNat ∧ (s.mem.read s.pc.toNat).toNat ≤ 0xFE)) := by decide
theorem witness_InstructionsPastTheTopFault :
    let four := machine 0xFFFD [0x04]
    let three := machine 0xFFFE [0x0A]
    (four.status = .running ∧ (four.mem.read four.pc.toNat).toNat ∈ [0x01, 0x03, 0x04] ∧ four.pc.toNat ≥ 0xFFFD) ∧
      (three.status = .running ∧
        (three.mem.read three.pc.toNat).toNat ∈ [0x02, 0x05, 0x06, 0x07, 0x08, 0x09, 0x0A] ∧
        three.pc.toNat ≥ 0xFFFE) := by decide
theorem witness_RegisterBytesAboveFifteenFault :
    let load := machine 0xFFFC [0x03, 0x10, 0xFF, 0xFF]
    let store := machine 0xFFFC [0x04, 0xFF, 0xFF, 0x10]
    let cmp := machine 0xFFFD [0x07, 0x0F, 0xFF]
    (load.status = .running ∧ (load.mem.read load.pc.toNat).toNat ∈ [0x01, 0x03] ∧ load.pc.toNat + 3 ≤ 0xFFFF ∧
      15 < (load.mem.read (load.pc.toNat + 1)).toNat) ∧
    (store.status = .running ∧ (store.mem.read store.pc.toNat).toNat = 0x04 ∧ store.pc.toNat + 3 ≤ 0xFFFF ∧
      15 < (store.mem.read (store.pc.toNat + 3)).toNat) ∧
    (cmp.status = .running ∧ (cmp.mem.read cmp.pc.toNat).toNat ∈ [0x02, 0x05, 0x06, 0x07] ∧
      cmp.pc.toNat + 2 ≤ 0xFFFF ∧ 15 < (cmp.mem.read (cmp.pc.toNat + 2)).toNat) := by decide
theorem witness_RunningMachineCompletesOrRaisesAFault : State.reset.status = .running := by decide
theorem witness_AFaultEndsTheRun :
    State.reset.status = .running ∧ step State.reset = .fault (.illegalOpcode 0 0) := ⟨rfl, rfl⟩
theorem witness_StoppedMachineNeverSteps :
    (after (machine 0 [0xFF])).status ≠ .running ∧ (after (machine 0 [0x00])).status ≠ .running := by decide
theorem witness_StepRunsTheDecodedInstruction :
    let s := machine 0xFFFC [0x03, 0x0F, 0x12, 0x34]
    s.status = .running ∧ s.pc.toNat + (encode (.load 15 0x1234)).length ≤ 0x10000 ∧
      decode (s.mem.bytes s.pc.toNat (encode (.load 15 0x1234)).length) = .ok (.load 15 0x1234) [] := by decide
theorem witness_NextFetchSeesTheStore :
    let s := machine 0 [] [(1, 0xFF00)]
    (∃ t, exec (.store 4 1) s = .next t) ∧ effectiveAddress 4 = some 4 ∧ s.status = .running ∧
      4 = s.pc.toNat + 4 ∧ (readReg 1 s).extractLsb 15 8 = (0xFF : Byte) :=
  ⟨⟨_, rfl⟩, by decide, by decide, by decide, by decide⟩
theorem witness_PlacedTableWordRunsNext :
    (machine 0xFFFC []).pc.toNat + 4 ≤ 0x10000 ∧ 32 ≤ 32 ∧
      decodeTableWord 32 0x01031234 = some (.movi 3 0x1234) := by decide
theorem witness_LaunchHoldsTheImageAndTheEntry : (List.replicate 65536 (0xFF : Byte)).length = 65536 :=
  List.length_replicate
theorem witness_EveryStepKeepsMemoryCanonical :
    let s := machine 0 [0x04, 0xFF, 0xFE, 0x01] [(1, 0x00FF)]
    s.mem.wf = true ∧ ∃ t, step s = .next t := ⟨by decide, ⟨_, rfl⟩⟩
theorem witness_ARunHasOneFate :
    1 ≤ 7 ∧ fateWithin 1 (machine 0 [0x00]) = some (.faults .illegalOpcode) := by decide

end Sys2Proof.Tests
end

section
/-! Memory (20_memory.md): what a read of several bytes is, what a stored word leaves in memory, what LOAD and STORE
answer, and which instructions leave memory alone; with them, O7, O8 and O10. -/

namespace Sys2Proof.Machine

/-! ### Reading `n` bytes as one number (R31) -/

/-- The bytes from an address on, taken apart at the last one, the least significant of the big-endian number. -/
theorem Memory.bytes_succ_eq_append (m : Memory) (a n : Nat) :
    m.bytes a (n + 1) = m.bytes a n ++ [m.read (a + n)] := by
  induction n generalizing a with
  | zero => rfl
  | succ n ih => rw [Memory.bytes, ih, Nat.add_right_comm, Nat.add_assoc, Memory.bytes, List.cons_append]

@[simp] theorem memRead_zero (m : Memory) (a : Nat) : memRead m a 0 = 0 := rfl

/-- One more byte at the upper end shifts the number up by a byte and adds that byte. -/
theorem memRead_succ (m : Memory) (a n : Nat) :
    memRead m a (n + 1) = memRead m a n * 256 + (m.read (a + n)).toNat := by
  simp only [memRead, bigEndian, Memory.bytes_succ_eq_append, List.foldl_append, List.foldl_cons, List.foldl_nil]

theorem memRead_one (m : Memory) (a : Nat) : memRead m a 1 = (m.read a).toNat := by
  simp [memRead_succ]

theorem memRead_two (m : Memory) (a : Nat) :
    memRead m a 2 = (m.read a).toNat * 256 + (m.read (a + 1)).toNat := by
  rw [memRead_succ, memRead_one]

theorem memRead_lt (m : Memory) (a n : Nat) : memRead m a n < 256 ^ n := by
  induction n with
  | zero => exact Nat.one_pos
  | succ n ih =>
    have hb := (m.read (a + n)).isLt
    rw [memRead_succ, pow_succ]
    omega

/-- Byte `k` of a read of `n` bytes is its base-256 digit `n - 1 - k`. -/
theorem memRead_digit (m : Memory) (a : Nat) {n k : Nat} (hk : k < n) :
    memRead m a n / 256 ^ (n - 1 - k) % 256 = (m.read (a + k)).toNat := by
  induction n with
  | zero => exact absurd hk (Nat.not_lt_zero k)
  | succ n ih =>
    have hb := (m.read (a + n)).isLt
    rw [memRead_succ]
    obtain rfl | hlt := Nat.eq_or_lt_of_le (Nat.lt_succ_iff.mp hk)
    · rw [Nat.add_sub_cancel, Nat.sub_self, pow_zero]
      omega
    · have hshift : (memRead m a n * 256 + (m.read (a + n)).toNat) / 256 = memRead m a n := by omega
      rw [show n + 1 - 1 - k = n - 1 - k + 1 by omega, pow_succ', ← Nat.div_div_eq_div_mul, hshift, ih hlt]

/-- Settles O7, from the recursion of the read at its upper end. -/
theorem memReadIsBigEndian : Obligations.MemReadIsBigEndian := by
  intro m a n _ _
  refine ⟨memRead_lt m a n, fun k hk => memRead_digit m a hk, ?_, ?_⟩
  · rintro rfl
    exact memRead_one m a
  · rintro rfl
    exact memRead_two m a

/-! ### Memory after a word is stored (R32) -/

theorem highByte_eq_extractLsb (v : Word) : highByte v = v.extractLsb 15 8 := by
  apply BitVec.eq_of_toNat_eq
  have hv := v.isLt
  rw [toNat_highByte, BitVec.extractLsb_toNat, Nat.shiftRight_eq_div_pow]
  omega

theorem lowByte_eq_extractLsb (v : Word) : lowByte v = v.extractLsb 7 0 := by
  apply BitVec.eq_of_toNat_eq
  rw [toNat_lowByte, BitVec.extractLsb_toNat, Nat.shiftRight_zero]

theorem read_writeWord_first (m : Memory) (a : Nat) (v : Word) :
    (writeWord m a v).read a = v.extractLsb 15 8 := by
  simp [read_writeWord, highByte_eq_extractLsb]

theorem read_writeWord_second (m : Memory) (a : Nat) (v : Word) :
    (writeWord m a v).read (a + 1) = v.extractLsb 7 0 := by
  simp [read_writeWord, lowByte_eq_extractLsb]

theorem sameMemoryOutside_storeWord (a : Nat) (v : Word) (s : State) :
    SameMemoryOutside a s (storeWord a v s) := by
  intro b hfirst hsecond
  rw [storeWord_mem, read_writeWord, if_neg hsecond, if_neg hfirst]

/-! ### What LOAD and STORE answer (R33, R34) -/

/-- An instruction that advances after its memory operand completes exactly when the operand's word and the next address
lie inside the address space. -/
theorem withWordOperand_advance_eq_next_iff {address : Word} {len : Nat} {access : Nat → State} {t : State} :
    withWordOperand address (fun a => advance len (access a)) = .next t ↔
      address ≠ 0xFFFF ∧ (access address.toNat).pc.toNat + len ≤ 0xFFFF ∧
        t = setPc (BitVec.ofNat 16 ((access address.toNat).pc.toNat + len)) (access address.toNat) := by
  rw [withWordOperand_eq]
  split
  · next htop => exact ⟨nofun, fun h => absurd htop h.1⟩
  · next htop => rw [advance_eq_next_iff, and_iff_right htop]

theorem exec_load_eq_next_iff {reg : RegIx} {address : Word} {s t : State} :
    exec (.load reg address) s = .next t ↔
      address ≠ 0xFFFF ∧ s.pc.toNat + 4 ≤ 0xFFFF ∧
        t = setPc (BitVec.ofNat 16 (s.pc.toNat + 4)) (writeResult reg (readWord s.mem address.toNat) s) :=
  withWordOperand_advance_eq_next_iff

theorem exec_store_eq_next_iff {address : Word} {reg : RegIx} {s t : State} :
    exec (.store address reg) s = .next t ↔
      address ≠ 0xFFFF ∧ s.pc.toNat + 4 ≤ 0xFFFF ∧
        t = setPc (BitVec.ofNat 16 (s.pc.toNat + 4)) (storeWord address.toNat (readReg reg s) s) :=
  withWordOperand_advance_eq_next_iff

/-! ### Only STORE writes memory (R32, R36) -/

theorem mem_of_advance {len : Nat} {s t : State} (h : advance len s = .next t) : t.mem = s.mem := by
  obtain ⟨-, rfl⟩ := advance_eq_next_iff.mp h
  rfl

theorem mem_of_jumpIf {taken : Bool} {len : Nat} {address : Word} {s t : State}
    (h : jumpIf taken len address s = .next t) : t.mem = s.mem := by
  rw [jumpIf_eq] at h
  split at h
  · cases h
    rfl
  · exact mem_of_advance h

/-- An instruction that completes and is not a STORE leaves memory as it was: all but the jumps and HALT end in an
advance of a state whose memory is the old one. -/
theorem mem_of_exec_of_ne_store {i : Instr} {s t : State} (h : exec i s = .next t)
    (hi : ∀ address reg, i ≠ .store address reg) : t.mem = s.mem := by
  cases i with
  | store address reg => exact absurd rfl (hi address reg)
  | load reg address =>
    obtain ⟨-, -, rfl⟩ := exec_load_eq_next_iff.mp h
    rfl
  | movi _ _ | mov _ _ | add _ _ | sub _ _ | cmp _ _ => exact (mem_of_advance h :)
  | jz _ | jnz _ => exact mem_of_jumpIf h
  | jmp _ | halt =>
    cases h
    rfl

/-- A STORE that completes has stored its register's word at its address, which lies inside memory. -/
theorem mem_of_exec_store {address : Word} {reg : RegIx} {s t : State}
    (h : exec (.store address reg) s = .next t) :
    ∃ a, effectiveAddress address = some a ∧ a + 1 ≤ 0xFFFF ∧
      t.mem = (storeWord a (readReg reg s) s).mem := by
  obtain ⟨htop, -, rfl⟩ := exec_store_eq_next_iff.mp h
  have hea := effectiveAddress_of_ne htop
  exact ⟨address.toNat, hea, Nat.le_of_lt_succ (effectiveAddress_lt hea), rfl⟩

/-- Settles O8: the law of reading after a stored word, and the split of the instructions into STORE and the rest. -/
theorem memWriteWritesHighThenLowByte : Obligations.MemWriteWritesHighThenLowByte := by
  refine ⟨fun a v s _ => ?_, fun i s t h => ⟨?_, mem_of_exec_of_ne_store h⟩⟩
  · exact ⟨read_writeWord_first s.mem a v, read_writeWord_second s.mem a v, sameMemoryOutside_storeWord a v s,
      fun r => readReg_storeWord r a v s, ⟨rfl, rfl⟩, rfl, ⟨rfl, rfl⟩⟩
  · rintro address reg rfl
    exact mem_of_exec_store h

/-- Settles O10: whether LOAD and STORE complete asks only that the word is not the one at 0xFFFF. -/
theorem misalignedAccessesAreAllowed : Obligations.MisalignedAccessesAreAllowed := by
  intro reg address s haddr hpc
  have htop : address ≠ 0xFFFF := by
    rintro rfl
    exact absurd haddr (by decide)
  refine ⟨⟨_, exec_load_eq_next_iff.mpr ⟨htop, hpc, rfl⟩, ?_, fun _ => rfl⟩,
    ⟨_, exec_store_eq_next_iff.mpr ⟨htop, hpc, rfl⟩, read_writeWord_first _ _ _, read_writeWord_second _ _ _,
      sameMemoryOutside_storeWord _ _ s⟩⟩
  rw [readReg_setPc, readReg_writeResult_same, readWord_eq_joinBytes, toNat_joinBytes]

end Sys2Proof.Machine
end

section
/-! The encoding (30_encoding.md): a byte list decodes to an instruction exactly when it begins with that instruction's
encoding, format by format; with it, O4 and O5. -/

namespace Sys2Proof

/-! ### What each operand decoder accepts (R52, R54, R55) -/

section
variable {bytes rest : List Byte} {i : Instr}

/-- Formats RI and RA: a register's byte, then the two bytes of a word. -/
theorem decodeRegWord_eq_ok_iff {mk : RegIx → Word → Instr} :
    decodeRegWord mk bytes = .ok i rest ↔
      ∃ reg w, i = mk reg w ∧ bytes = registerByte reg :: highByte w :: lowByte w :: rest := by
  constructor
  · intro h
    match bytes, h with
    | b1 :: b2 :: b3 :: bs, h =>
      cases hreg : registerOfByte b1 with
      | none => simp [decodeRegWord, hreg] at h
      | some reg =>
        simp only [decodeRegWord, hreg, Decoded.ok.injEq] at h
        obtain ⟨rfl, rfl⟩ := h
        exact ⟨reg, joinBytes b2 b3, rfl, by simp [registerByte_of_registerOfByte hreg]⟩
  · rintro ⟨reg, w, rfl, rfl⟩
    simp [decodeRegWord]

/-- Format AR: the two bytes of a word, then a register's byte. -/
theorem decodeWordReg_eq_ok_iff {mk : Word → RegIx → Instr} :
    decodeWordReg mk bytes = .ok i rest ↔
      ∃ w reg, i = mk w reg ∧ bytes = highByte w :: lowByte w :: registerByte reg :: rest := by
  constructor
  · intro h
    match bytes, h with
    | b1 :: b2 :: b3 :: bs, h =>
      cases hreg : registerOfByte b3 with
      | none => simp [decodeWordReg, hreg] at h
      | some reg =>
        simp only [decodeWordReg, hreg, Decoded.ok.injEq] at h
        obtain ⟨rfl, rfl⟩ := h
        exact ⟨joinBytes b1 b2, reg, rfl, by simp [registerByte_of_registerOfByte hreg]⟩
  · rintro ⟨w, reg, rfl, rfl⟩
    simp [decodeWordReg]

/-- Format RR: the bytes of two registers. -/
theorem decodeRegReg_eq_ok_iff {mk : RegIx → RegIx → Instr} :
    decodeRegReg mk bytes = .ok i rest ↔
      ∃ ra rb, i = mk ra rb ∧ bytes = registerByte ra :: registerByte rb :: rest := by
  constructor
  · intro h
    match bytes, h with
    | b1 :: b2 :: bs, h =>
      cases ha : registerOfByte b1 with
      | none => simp [decodeRegReg, ha] at h
      | some ra =>
        cases hb : registerOfByte b2 with
        | none => simp [decodeRegReg, ha, hb] at h
        | some rb =>
          simp only [decodeRegReg, ha, hb, Decoded.ok.injEq] at h
          obtain ⟨rfl, rfl⟩ := h
          exact ⟨ra, rb, rfl, by rw [registerByte_of_registerOfByte ha, registerByte_of_registerOfByte hb]⟩
  · rintro ⟨ra, rb, rfl, rfl⟩
    simp [decodeRegReg]

/-- Format A: the two bytes of a word. -/
theorem decodeWord_eq_ok_iff {mk : Word → Instr} :
    decodeWord mk bytes = .ok i rest ↔ ∃ w, i = mk w ∧ bytes = highByte w :: lowByte w :: rest := by
  constructor
  · intro h
    match bytes, h with
    | b1 :: b2 :: bs, h =>
      simp only [decodeWord, Decoded.ok.injEq] at h
      obtain ⟨rfl, rfl⟩ := h
      exact ⟨joinBytes b1 b2, rfl, by simp⟩
  · rintro ⟨w, rfl, rfl⟩
    simp [decodeWord]

/-- The operand bytes of an opcode decode to an instruction exactly when, behind the opcode's byte, they make up that
instruction's encoding. -/
theorem decodeOperands_eq_ok_iff {op : Opcode} :
    decodeOperands op bytes = .ok i rest ↔ op = i.opcode ∧ op.byte :: bytes = encode i ++ rest := by
  constructor
  · intro h
    cases op with
    | movi | load =>
      obtain ⟨reg, w, rfl, rfl⟩ := decodeRegWord_eq_ok_iff.mp h
      exact ⟨rfl, rfl⟩
    | store =>
      obtain ⟨w, reg, rfl, rfl⟩ := decodeWordReg_eq_ok_iff.mp h
      exact ⟨rfl, rfl⟩
    | mov | add | sub | cmp =>
      obtain ⟨ra, rb, rfl, rfl⟩ := decodeRegReg_eq_ok_iff.mp h
      exact ⟨rfl, rfl⟩
    | jmp | jz | jnz =>
      obtain ⟨w, rfl, rfl⟩ := decodeWord_eq_ok_iff.mp h
      exact ⟨rfl, rfl⟩
    | halt =>
      cases h
      exact ⟨rfl, rfl⟩
  · rintro ⟨rfl, h⟩
    cases i with
    | movi reg w | load reg w => exact decodeRegWord_eq_ok_iff.mpr ⟨reg, w, rfl, (List.cons.inj h).2⟩
    | store w reg => exact decodeWordReg_eq_ok_iff.mpr ⟨w, reg, rfl, (List.cons.inj h).2⟩
    | mov ra rb | add ra rb | sub ra rb | cmp ra rb =>
      exact decodeRegReg_eq_ok_iff.mpr ⟨ra, rb, rfl, (List.cons.inj h).2⟩
    | jmp w | jz w | jnz w => exact decodeWord_eq_ok_iff.mpr ⟨w, rfl, (List.cons.inj h).2⟩
    | halt => exact congrArg (Decoded.ok .halt) (List.cons.inj h).2

end

/-! ### What the decoder accepts (R57) -/

/-- Bytes decode to an instruction exactly when the first selects its opcode and they begin with its encoding. -/
theorem decode_cons_eq_ok_iff {b0 : Byte} {bytes rest : List Byte} {i : Instr} :
    decode (b0 :: bytes) = .ok i rest ↔ opcodeOf b0 = some i.opcode ∧ b0 :: bytes = encode i ++ rest := by
  cases hop : opcodeOf b0 with
  | none => simp [decode, hop]
  | some op =>
    obtain rfl := byte_of_opcodeOf hop
    simp only [decode, hop, decodeOperands_eq_ok_iff, Option.some.injEq]

/-- An encoding decodes to its instruction and leaves the bytes behind it. -/
theorem decode_encode_append (i : Instr) (rest : List Byte) : decode (encode i ++ rest) = .ok i rest := by
  obtain ⟨operands, henc⟩ : ∃ operands, encode i = i.opcode.byte :: operands := by
    cases i <;> exact ⟨_, rfl⟩
  rw [henc, List.cons_append]
  exact decode_cons_eq_ok_iff.mpr ⟨opcodeOf_byte _, by rw [henc, List.cons_append]⟩

/-! ### Lengths (R51) -/

/-- Decoding consumes the number of bytes the opcode byte announces. -/
theorem length_of_decode_cons {b0 : Byte} {bytes rest : List Byte} {i : Instr} {len : Nat}
    (hlen : opcodeLength b0 = some len) (h : decode (b0 :: bytes) = .ok i rest) :
    (b0 :: bytes).length = rest.length + len := by
  obtain ⟨hop, hbytes⟩ := decode_cons_eq_ok_iff.mp h
  obtain rfl : i.opcode.length = len := by simpa [opcodeLength, hop] using hlen
  rw [hbytes, List.length_append, length_encode, Nat.add_comm]

/-- A byte that announces no length begins no instruction. -/
theorem decode_cons_ne_ok {b0 : Byte} (hlen : opcodeLength b0 = none) (bytes rest : List Byte) (i : Instr) :
    decode (b0 :: bytes) ≠ .ok i rest := by
  intro h
  obtain ⟨hop, -⟩ := decode_cons_eq_ok_iff.mp h
  simp [opcodeLength, hop] at hlen

theorem opcodeLength_eq_none_of_forall_ne {b0 : Byte} (h : ∀ op : Opcode, b0 ≠ op.byte) :
    opcodeLength b0 = none := by
  cases hop : opcodeOf b0 with
  | none => rw [opcodeLength, hop, Option.map_none]
  | some op => exact absurd (byte_of_opcodeOf hop) (h op)

/-- Settles O4: the opcode byte's length by the table's rows, and what decoding consumes from that length. -/
theorem lengthIsAFunctionOfTheOpcodeByte : Obligations.LengthIsAFunctionOfTheOpcodeByte := by
  intro b0 rest
  split_ifs with hfour hthree hone
  · have hlen : opcodeLength b0 = some 4 := by
      simp only [List.mem_cons, List.not_mem_nil, or_false] at hfour
      obtain rfl | rfl | rfl := hfour <;> rfl
    exact ⟨hlen, fun _ _ => length_of_decode_cons hlen⟩
  · have hlen : opcodeLength b0 = some 3 := by
      simp only [List.mem_cons, List.not_mem_nil, or_false] at hthree
      obtain rfl | rfl | rfl | rfl | rfl | rfl | rfl := hthree <;> rfl
    exact ⟨hlen, fun _ _ => length_of_decode_cons hlen⟩
  · have hlen : opcodeLength b0 = some 1 := by
      subst hone
      rfl
    exact ⟨hlen, fun _ _ => length_of_decode_cons hlen⟩
  · have hlen : opcodeLength b0 = none := by
      refine opcodeLength_eq_none_of_forall_ne ?_
      rintro op rfl
      cases op <;> simp [Opcode.byte] at hfour hthree hone
    exact ⟨hlen, fun i tail => decode_cons_ne_ok hlen rest tail i⟩

/-! ### Where the operand bytes stand (R52) -/

theorem eq_joinBytes_of_toNat {w : Word} {hi lo : Byte} (h : w.toNat = hi.toNat * 256 + lo.toNat) :
    w = joinBytes hi lo :=
  BitVec.eq_of_toNat_eq (h.trans (toNat_joinBytes hi lo).symm)

/-- Settles O5: each byte list is the encoding of its instruction, the word's bytes being the two given. -/
theorem operandBytesStandWhereTheFormatsSay : Obligations.OperandBytesStandWhereTheFormatsSay := by
  intro r q hi lo w hw
  have hjoin := eq_joinBytes_of_toNat hw
  obtain rfl : highByte w = hi := by rw [hjoin, highByte_joinBytes]
  obtain rfl : lowByte w = lo := by rw [hjoin, lowByte_joinBytes]
  exact ⟨decode_encode_append (.movi r w) [], decode_encode_append (.mov r q) [],
    decode_encode_append (.load r w) [], decode_encode_append (.store w r) [],
    decode_encode_append (.add r q) [], decode_encode_append (.sub r q) [], decode_encode_append (.cmp r q) [],
    decode_encode_append (.jmp w) [], decode_encode_append (.jz w) [], decode_encode_append (.jnz w) [],
    decode_encode_append .halt []⟩

end Sys2Proof
end

section
/-! Control flow (43_control_flow.md): a step whose pc holds an instruction's encoding runs that instruction, and what the
three jumps make of it; with them, O22. -/

namespace Sys2Proof.Machine

/-! ### A step whose instruction is known (R57, R140) -/

/-- Fetching an instruction's encoding that fits below 0x10000 gives that instruction. -/
theorem fetchDecode_of_bytes {s : State} {i : Instr} (hfit : s.pc.toNat + (encode i).length ≤ 0x10000)
    (hbytes : s.mem.bytes s.pc.toNat (encode i).length = encode i) : fetchDecode s = .instr i := by
  obtain ⟨operands, henc⟩ : ∃ operands, encode i = i.opcode.byte :: operands := by
    cases i <;> exact ⟨_, rfl⟩
  have hopcode : s.mem.read s.pc.toNat = i.opcode.byte := by
    rw [henc] at hbytes
    exact (List.cons.inj hbytes).1
  have hlen : opcodeLength (s.mem.read s.pc.toNat) = some (encode i).length := by
    rw [hopcode, opcodeLength_byte, length_encode]
  have hdecode : decode (encode i) = .ok i [] := by
    simpa using decode_encode_append i []
  rw [fetchDecode_fits hlen (by omega), hbytes, hdecode]

theorem step_eq_exec_of_bytes {s : State} {i : Instr} (hrun : s.status = .running)
    (hfit : s.pc.toNat + (encode i).length ≤ 0x10000)
    (hbytes : s.mem.bytes s.pc.toNat (encode i).length = encode i) : step s = exec i s := by
  rw [step_running hrun, fetchDecode_of_bytes hfit hbytes]

/-! ### The two ways of a conditional jump (R95) -/

theorem jumpIf_of_taken {taken : Bool} (h : taken = true) (len : Nat) (address : Word) (s : State) :
    jumpIf taken len address s = .next { s with pc := address } :=
  if_pos h

theorem jumpIf_of_not_taken {taken : Bool} {len : Nat} {s : State} (h : taken = false)
    (hnext : s.pc.toNat + len ≤ 0xFFFF) (address : Word) :
    jumpIf taken len address s = .next { s with pc := s.pc + BitVec.ofNat 16 len } := by
  rw [jumpIf_eq, h, if_neg Bool.false_ne_true, advance_of_le hnext, BitVec.ofNat_add, BitVec.ofNat_toNat,
    BitVec.setWidth_eq, setPc]

/-! ### The steps of the three jumps (R96, R97, R98) -/

/-- Three bytes whose last two hold a word, high byte first (format A, R52). -/
theorem Memory.bytes_three_of_toNat {m : Memory} {a : Nat} {b0 : Byte} {w : Word}
    (hw : w.toNat = (m.read (a + 1)).toNat * 256 + (m.read (a + 2)).toNat) (hb0 : m.read a = b0) :
    m.bytes a 3 = [b0, highByte w, lowByte w] := by
  rw [eq_joinBytes_of_toNat hw, highByte_joinBytes, lowByte_joinBytes, ← hb0]
  rfl

section
variable {s : State} {target : Word} (hrun : s.status = .running) (hfit : s.pc.toNat + 2 ≤ 0xFFFF)
  (htarget : target.toNat =
    (s.mem.read (s.pc.toNat + 1)).toNat * 256 + (s.mem.read (s.pc.toNat + 2)).toNat)
include hrun hfit htarget

theorem step_jmp (hop : s.mem.read s.pc.toNat = 0x08) : step s = .next { s with pc := target } :=
  step_eq_exec_of_bytes (i := .jmp target) hrun (Nat.succ_le_succ hfit) (Memory.bytes_three_of_toNat htarget hop)

theorem step_jz (hop : s.mem.read s.pc.toNat = 0x09) : step s = jumpIf s.z 3 target s :=
  step_eq_exec_of_bytes (i := .jz target) hrun (Nat.succ_le_succ hfit) (Memory.bytes_three_of_toNat htarget hop)

theorem step_jnz (hop : s.mem.read s.pc.toNat = 0x0A) : step s = jumpIf (!s.z) 3 target s :=
  step_eq_exec_of_bytes (i := .jnz target) hrun (Nat.succ_le_succ hfit) (Memory.bytes_three_of_toNat htarget hop)

end

/-- Settles O22: the step of each jump, and for JZ and JNZ the two ways of the jump by the value of `Z`. -/
theorem jumpStepsGoToTheirAbsoluteTarget : Obligations.JumpStepsGoToTheirAbsoluteTarget := by
  intro s target hrun hfit htarget
  refine ⟨step_jmp hrun hfit htarget, ?jzTaken, ?jnzTaken, ?jzNotTaken, ?jnzNotTaken⟩
  case jzTaken =>
    intro hop hz
    exact (step_jz hrun hfit htarget hop).trans (jumpIf_of_taken hz 3 target s)
  case jnzTaken =>
    intro hop hz
    exact (step_jnz hrun hfit htarget hop).trans (jumpIf_of_taken (congrArg not hz) 3 target s)
  case jzNotTaken =>
    intro hop hz hnext
    exact (step_jz hrun hfit htarget hop).trans (jumpIf_of_not_taken hz hnext target)
  case jnzNotTaken =>
    intro hop hz hnext
    exact (step_jnz hrun hfit htarget hop).trans (jumpIf_of_not_taken (congrArg not hz) hnext target)

end Sys2Proof.Machine
end

section
/-! The encoding (30_encoding.md), both ways: decoding and encoding are inverse to each other, and the opcode table's masks
and matches pick out the bytes that decode; with them, O1, O2, O3 and O6. -/

namespace Sys2Proof

/-- Settles O1. -/
theorem decodingAnEncodingGivesItBack : Obligations.DecodingAnEncodingGivesItBack :=
  decode_encode_append

theorem eq_encode_append_of_decode {bytes rest : List Byte} {i : Instr} (h : decode bytes = .ok i rest) :
    bytes = encode i ++ rest := by
  cases bytes with
  | nil => cases h
  | cons b0 operands => exact (decode_cons_eq_ok_iff.mp h).2

/-- Settles O2. -/
theorem whatDecodesIsAnEncoding : Obligations.WhatDecodesIsAnEncoding :=
  fun _ _ _ => eq_encode_append_of_decode

/-- Settles O6: the source's eleven byte lists, each evaluated by the decoder. -/
theorem sourceExamplesDecode : Obligations.SourceExamplesDecode :=
  ⟨rfl, rfl, rfl, rfl, rfl, rfl, rfl, rfl, rfl, rfl, rfl⟩

/-! ### The masks and matches of the opcode table (R64) -/

/-- The bytes of a row's mask behind the opcode byte: the high four bits of each register byte must be zero. -/
def Format.operandMask : Format → List Byte
  | .RI | .RA => [0xF0, 0, 0]
  | .RR => [0xF0, 0xF0]
  | .AR => [0, 0, 0xF0]
  | .A => [0, 0]
  | .N => []

theorem numberBytes_rowMask (op : Opcode) :
    numberBytes (rowMask op) op.length = 0xFF :: op.format.operandMask := by
  cases op <;> rfl

theorem numberBytes_rowMatch (op : Opcode) :
    numberBytes (rowMatch op) op.length = op.byte :: List.replicate (op.length - 1) 0 := by
  cases op <;> rfl

/-- A byte passes the mask of a register byte exactly when it names a register (R54). -/
theorem and_registerMask_eq_zero_iff (b : Byte) : b &&& 0xF0 = 0 ↔ ∃ r, registerOfByte b = some r := by
  rw [← Option.isSome_iff_exists, Option.isSome_iff_ne_none, ne_eq, registerOfByte_eq_none_iff]
  revert b
  decide

section
variable {bytes : List Byte}

theorem exists_decodeRegWord_iff (mk : RegIx → Word → Instr) (hlen : bytes.length = 3) :
    (∃ i, decodeRegWord mk bytes = .ok i []) ↔ List.zipWith (· &&& ·) bytes [0xF0, 0, 0] = [0, 0, 0] := by
  obtain ⟨b1, b2, b3, rfl⟩ := List.length_eq_three.mp hlen
  simp only [List.zipWith, List.cons.injEq, and_registerMask_eq_zero_iff]
  cases hreg : registerOfByte b1 <;> simp [decodeRegWord, hreg]

theorem exists_decodeWordReg_iff (mk : Word → RegIx → Instr) (hlen : bytes.length = 3) :
    (∃ i, decodeWordReg mk bytes = .ok i []) ↔ List.zipWith (· &&& ·) bytes [0, 0, 0xF0] = [0, 0, 0] := by
  obtain ⟨b1, b2, b3, rfl⟩ := List.length_eq_three.mp hlen
  simp only [List.zipWith, List.cons.injEq, and_registerMask_eq_zero_iff]
  cases hreg : registerOfByte b3 <;> simp [decodeWordReg, hreg]

theorem exists_decodeRegReg_iff (mk : RegIx → RegIx → Instr) (hlen : bytes.length = 2) :
    (∃ i, decodeRegReg mk bytes = .ok i []) ↔ List.zipWith (· &&& ·) bytes [0xF0, 0xF0] = [0, 0] := by
  obtain ⟨b1, b2, rfl⟩ := List.length_eq_two.mp hlen
  simp only [List.zipWith, List.cons.injEq, and_registerMask_eq_zero_iff]
  cases ha : registerOfByte b1 <;> cases hb : registerOfByte b2 <;> simp [decodeRegReg, ha, hb]

theorem exists_decodeWord_iff (mk : Word → Instr) (hlen : bytes.length = 2) :
    (∃ i, decodeWord mk bytes = .ok i []) ↔ List.zipWith (· &&& ·) bytes [0, 0] = [0, 0] := by
  obtain ⟨b1, b2, rfl⟩ := List.length_eq_two.mp hlen
  simp [decodeWord]

/-- Operand bytes in the right number decode exactly when they pass the operand part of the row's mask. -/
theorem exists_decodeOperands_iff {op : Opcode} (hlen : bytes.length + 1 = op.length) :
    (∃ i, decodeOperands op bytes = .ok i []) ↔
      List.zipWith (· &&& ·) bytes op.format.operandMask = List.replicate (op.length - 1) 0 := by
  have hoperands : bytes.length = op.length - 1 := by omega
  cases op with
  | movi | load => exact exists_decodeRegWord_iff _ hoperands
  | store => exact exists_decodeWordReg_iff _ hoperands
  | mov | add | sub | cmp => exact exists_decodeRegReg_iff _ hoperands
  | jmp | jz | jnz => exact exists_decodeWord_iff _ hoperands
  | halt =>
    obtain rfl := List.length_eq_zero_iff.mp hoperands
    exact ⟨fun _ => rfl, fun _ => ⟨.halt, rfl⟩⟩

/-- Bytes decode to an instruction of an opcode exactly when that opcode's byte comes first and its operands follow. -/
theorem exists_decode_cons_iff {b0 : Byte} {op : Opcode} :
    (∃ i, decode (b0 :: bytes) = .ok i [] ∧ i.opcode = op) ↔
      b0 = op.byte ∧ ∃ i, decodeOperands op bytes = .ok i [] := by
  constructor
  · rintro ⟨i, hdecode, rfl⟩
    obtain ⟨hop, hbytes⟩ := decode_cons_eq_ok_iff.mp hdecode
    obtain rfl := byte_of_opcodeOf hop
    exact ⟨rfl, i, decodeOperands_eq_ok_iff.mpr ⟨rfl, hbytes⟩⟩
  · rintro ⟨rfl, i, hi⟩
    obtain ⟨rfl, hbytes⟩ := decodeOperands_eq_ok_iff.mp hi
    exact ⟨i, decode_cons_eq_ok_iff.mpr ⟨opcodeOf_byte _, hbytes⟩, rfl⟩

end

/-- Settles O3: the opcode byte is masked with all ones, the operand bytes format by format. -/
theorem decodingIsTheTablesMaskAndMatch : Obligations.DecodingIsTheTablesMaskAndMatch := by
  intro op bytes hlen
  rw [numberBytes_rowMask, numberBytes_rowMatch]
  cases bytes with
  | nil => cases op <;> cases hlen
  | cons b0 operands =>
    have hones : b0 &&& 0xFF = b0 := BitVec.and_allOnes
    rw [exists_decode_cons_iff, exists_decodeOperands_iff hlen, List.zipWith_cons_cons, List.cons.injEq, hones]

end Sys2Proof
end

section
/-! Memory (20_memory.md): the word stored is the word loaded, and the canonical form (10_state.md section 9) determines a
memory and is kept by every launch and every step; with them, O9, O11, O12 and O44 to O47. -/

namespace Sys2Proof.Machine

/-! ### Words stored and read (R31, R32) -/

@[simp] theorem readWord_writeWord (m : Memory) (a : Nat) (v : Word) : readWord (writeWord m a v) a = v := by
  simp [readWord_eq_joinBytes, read_writeWord]

theorem toNat_readWord (m : Memory) (a : Nat) :
    (readWord m a).toNat = (m.read a).toNat * 256 + (m.read (a + 1)).toNat := by
  rw [readWord_eq_joinBytes, toNat_joinBytes]

/-- Settles O9: each byte read is that of the last store that covers it. -/
theorem overlappingStoresComposeByByte : Obligations.OverlappingStoresComposeByByte := by
  intro s a v w _ m
  have hread (b : Nat) : m.read b = if b = a + 2 then lowByte w else if b = a + 1 then highByte w else
      (writeWord s.mem a v).read b := read_writeWord _ _ _ b
  have hfirst : m.read a = highByte v := by simp [hread, read_writeWord]
  have hsecond : m.read (a + 1) = highByte w := by simp [hread]
  have hthird : m.read (a + 2) = lowByte w := by simp [hread]
  rw [memRead_two, memRead_two, show a + 1 + 1 = a + 2 from rfl, hfirst, hsecond, hthird]
  simp only [toNat_highByte, toNat_lowByte, true_and, and_true]
  exact Nat.div_add_mod' _ _

/-- Settles O11: both instructions complete, so their addresses have a place, which is the same. -/
theorem storedWordLoadsBack : Obligations.StoredWordLoadsBack := by
  intro address r q s t u hstore hload
  obtain ⟨-, -, rfl⟩ := exec_store_eq_next_iff.mp hstore
  obtain ⟨-, -, rfl⟩ := exec_load_eq_next_iff.mp hload
  simp [zeroFlag]

/-! ### The canonical form (10_state.md section 9) -/

/-- The canonical form, by the first listed byte. -/
theorem Memory.wfFrom_cons {lo b : Nat} {v : Byte} {rest : Memory} :
    Memory.wfFrom lo ((b, v) :: rest) = true ↔
      lo ≤ b ∧ b < Config.memSize ∧ v ≠ Config.unlistedByte ∧ rest.wfFrom (b + 1) = true := by
  simp only [Memory.wfFrom, Bool.and_eq_true, decide_eq_true_eq, and_assoc]

theorem Memory.read_cons_self (b : Nat) (v : Byte) (rest : Memory) : Memory.read ((b, v) :: rest) b = v :=
  if_pos rfl

theorem Memory.read_cons_of_ne {a b : Nat} (h : b ≠ a) (v : Byte) (rest : Memory) :
    Memory.read ((b, v) :: rest) a = Memory.read rest a :=
  if_neg h

/-- Of two canonical memories that read alike, the first does not begin below the second, which reads an unlisted byte
below its own beginning. -/
theorem Memory.first_le_of_read_eq {lo b c : Nat} {v w : Byte} {rest rest' : Memory}
    (hm : Memory.wfFrom lo ((b, v) :: rest) = true) (hn : Memory.wfFrom lo ((c, w) :: rest') = true)
    (hread : ∀ a, a < Config.memSize → Memory.read ((b, v) :: rest) a = Memory.read ((c, w) :: rest') a) :
    c ≤ b := by
  obtain ⟨-, hb, hv, -⟩ := Memory.wfFrom_cons.mp hm
  obtain ⟨-, hc⟩ := Memory.wfFrom_cons.mp hn
  by_contra! hlt
  have hunlisted : Memory.read ((c, w) :: rest') b = Config.unlistedByte :=
    Memory.read_below (lo := c) (Memory.wfFrom_cons.mpr ⟨le_rfl, hc⟩) hlt
  exact hv (by rw [← hunlisted, ← hread b hb, Memory.read_cons_self])

/-- A canonical memory that reads as an unlisted byte everywhere lists nothing. -/
theorem Memory.eq_nil_of_read {m : Memory} {lo : Nat} (hm : m.wfFrom lo = true)
    (hread : ∀ a, a < Config.memSize → m.read a = Config.unlistedByte) : m = [] := by
  cases m with
  | nil => rfl
  | cons cell rest =>
    obtain ⟨b, v⟩ := cell
    obtain ⟨-, hb, hv, -⟩ := Memory.wfFrom_cons.mp hm
    exact absurd ((Memory.read_cons_self b v rest).symm.trans (hread b hb)) hv

/-- Canonical memories that read alike are the same list. -/
theorem Memory.eq_of_wfFrom_of_read {m n : Memory} {lo : Nat} (hm : m.wfFrom lo = true) (hn : n.wfFrom lo = true)
    (hread : ∀ a, a < Config.memSize → m.read a = n.read a) : m = n := by
  induction m generalizing lo n with
  | nil => exact (Memory.eq_nil_of_read hn fun a ha => (hread a ha).symm).symm
  | cons cell rest ih =>
    obtain ⟨b, v⟩ := cell
    cases n with
    | nil => exact Memory.eq_nil_of_read hm hread
    | cons cell' rest' =>
      obtain ⟨c, w⟩ := cell'
      obtain rfl : b = c := Nat.le_antisymm
        (Memory.first_le_of_read_eq hn hm fun a ha => (hread a ha).symm) (Memory.first_le_of_read_eq hm hn hread)
      obtain ⟨-, hb, -, hrest⟩ := Memory.wfFrom_cons.mp hm
      obtain ⟨-, -, -, hrest'⟩ := Memory.wfFrom_cons.mp hn
      obtain rfl : v = w := by simpa only [Memory.read_cons_self] using hread b hb
      refine congrArg _ (ih hrest hrest' fun a ha => ?_)
      by_cases hab : b = a
      · rw [Memory.read_below hrest (by omega), Memory.read_below hrest' (by omega)]
      · simpa only [Memory.read_cons_of_ne hab] using hread a ha

/-- Settles O12. -/
theorem canonicalMemoriesReadingAlikeAreEqual : Obligations.CanonicalMemoriesReadingAlikeAreEqual :=
  fun _ _ => Memory.eq_of_wfFrom_of_read

/-! ### The launch (70_reset_and_hazards.md R130) -/

/-- Settles O44: the image lies below the top of memory, so none of its bytes is dropped. -/
theorem launchHoldsTheImageAndTheEntry : Obligations.LaunchHoldsTheImageAndTheEntry := by
  intro image entryPc initR initZ initC hlen
  refine ⟨fun a b hb => ?_, rfl, rfl, rfl, rfl, rfl⟩
  obtain ⟨ha, rfl⟩ := List.getElem?_eq_some_iff.mp hb
  have hplace : 0 ≤ a ∧ a < 0 + image.length ∧ a < Config.memSize := by
    simp only [Config.memSize]
    omega
  exact (read_placeBytes image [] 0 a).trans (dif_pos hplace)

/-- Settles O45. -/
theorem resetIsTheZeroLaunch : Obligations.ResetIsTheZeroLaunch :=
  ⟨rfl, fun _ => Vector.getElem_replicate _, fun _ => rfl, rfl⟩

/-- Settles O46. -/
theorem launchMemoryIsCanonical : Obligations.LaunchMemoryIsCanonical :=
  ⟨rfl, fun image _ _ _ _ => wf_placeBytes image 0 rfl⟩

/-! ### Every step keeps the canonical form -/

/-- A step that reaches a next state has run an instruction on a running machine. -/
theorem exec_of_step_eq_next {s t : State} (h : step s = .next t) :
    s.status = .running ∧ ∃ i, fetchDecode s = .instr i ∧ exec i s = .next t := by
  by_cases hrun : s.status = .running
  · rw [step_running hrun] at h
    cases hfetch : fetchDecode s with
    | instr i => exact ⟨hrun, i, rfl, by simpa only [hfetch] using h⟩
    | stop f => simp [hfetch] at h
  · obtain ⟨f, hstep, -⟩ := step_stopped hrun
    simp [hstep] at h

theorem wf_of_exec_eq_next {i : Instr} {s t : State} (hm : s.mem.wf = true) (h : exec i s = .next t) :
    t.mem.wf = true := by
  by_cases hstore : ∃ address reg, i = .store address reg
  · obtain ⟨address, reg, rfl⟩ := hstore
    obtain ⟨a, -, ha, hmem⟩ := mem_of_exec_store h
    rw [hmem]
    exact wf_writeWord _ hm (Nat.lt_succ_of_le ha)
  · rw [mem_of_exec_of_ne_store h fun address reg hi => hstore ⟨address, reg, hi⟩]
    exact hm

/-- Settles O47: only STORE writes memory, and the word it writes lies inside the address space. -/
theorem everyStepKeepsMemoryCanonical : Obligations.EveryStepKeepsMemoryCanonical := by
  intro s t hm h
  obtain ⟨-, i, -, hexec⟩ := exec_of_step_eq_next h
  exact wf_of_exec_eq_next hm hexec

end Sys2Proof.Machine
end

section
/-! What every instruction does (chapters 40 to 44): the effect it has apart from the pc, and the four ways in which
execution can go; with them, O13 to O21 and O31 to O34. -/

namespace Sys2Proof.Machine

/-! ### The effect of an instruction, apart from pc and run status -/

/-- What an instruction writes to registers, flags and memory: nothing for the jumps and HALT. -/
def effect (i : Instr) (s : State) : State :=
  match i with
  | .movi reg imm => writeResult reg imm s
  | .mov dest src => writeResult dest (readReg src s) s
  | .load reg address => writeResult reg (readWord s.mem address.toNat) s
  | .store address reg => storeWord address.toNat (readReg reg s) s
  | .add dest src =>
    setC (addCarry (readReg dest s) (readReg src s))
      (writeResult dest (addWord (readReg dest s) (readReg src s)) s)
  | .sub dest src =>
    setC (subBorrow (readReg dest s) (readReg src s))
      (writeResult dest (subWord (readReg dest s) (readReg src s)) s)
  | .cmp regA regB =>
    setC (subBorrow (readReg regA s) (readReg regB s))
      (setZ (zeroFlag (subWord (readReg regA s) (readReg regB s))) s)
  | .jmp _ | .jz _ | .jnz _ | .halt => s

theorem setC_setZ_eq (c z : Bool) (s : State) : setC c (setZ z s) = { s with z := z, c := c } := rfl

/-- An effect is on registers, flags and memory only. -/
theorem effect_eq (i : Instr) (s : State) :
    ∃ regs z c mem, effect i s = { s with regs := regs, z := z, c := c, mem := mem } := by
  cases i with
  | cmp => exact ⟨_, _, _, _, setC_setZ_eq _ _ s⟩
  | _ => exact ⟨_, _, _, _, rfl⟩

@[simp] theorem effect_pc (i : Instr) (s : State) : (effect i s).pc = s.pc := by
  obtain ⟨_, _, _, _, h⟩ := effect_eq i s
  rw [h]

@[simp] theorem effect_status (i : Instr) (s : State) : (effect i s).status = s.status := by
  obtain ⟨_, _, _, _, h⟩ := effect_eq i s
  rw [h]

@[simp] theorem effect_draws (i : Instr) (s : State) : (effect i s).draws = s.draws := by
  obtain ⟨_, _, _, _, h⟩ := effect_eq i s
  rw [h]

/-- The state of an instruction that takes effect and advances the pc by its length. -/
def advanced (i : Instr) (s : State) : State :=
  setPc (BitVec.ofNat 16 (s.pc.toNat + i.opcode.length)) (effect i s)

theorem toNat_pc_advanced {i : Instr} {s : State} (h : s.pc.toNat + i.opcode.length ≤ 0xFFFF) :
    (advanced i s).pc.toNat = s.pc.toNat + i.opcode.length :=
  toNat_nextPc h

theorem sameControl_advanced (i : Instr) (s : State) : SameControl s (advanced i s) :=
  ⟨effect_status i s, effect_draws i s⟩

/-! ### The four ways of execution (60_exceptions.md section 1) -/

theorem wordAddressLegal_iff {address : Word} : wordAddressLegal address = true ↔ address ≠ 0xFFFF :=
  bne_iff_ne

/-- The only illegal operand is the word address 0xFFFF of a LOAD or a STORE (R55). -/
theorem wellFormed_eq_false_iff {i : Instr} :
    WellFormed i = false ↔ (∃ reg, i = .load reg 0xFFFF) ∨ ∃ reg, i = .store 0xFFFF reg := by
  cases i <;> simp [WellFormed, wordAddressLegal]

theorem exec_of_not_wellFormed {i : Instr} (h : WellFormed i = false) (s : State) :
    exec i s = .fault (.dataWrap 0xFFFF) := by
  obtain ⟨reg, rfl⟩ | ⟨reg, rfl⟩ := wellFormed_eq_false_iff.mp h <;> rfl

theorem exec_of_jumpTarget {i : Instr} {s : State} {target : Word} (h : jumpTarget i s = some target) :
    exec i s = .next (setPc target s) := by
  cases i with
  | jmp address =>
    cases h
    rfl
  | jz address =>
    obtain ⟨hz, rfl⟩ : s.z = true ∧ address = target := by simpa [jumpTarget] using h
    exact jumpIf_of_taken hz _ address s
  | jnz address =>
    obtain ⟨hz, rfl⟩ : s.z = false ∧ address = target := by simpa [jumpTarget] using h
    exact jumpIf_of_taken (congrArg not hz) _ address s
  | _ => cases h

/-- Every instruction but HALT and a taken jump takes effect and advances, if its operands are legal. -/
theorem exec_eq_advance {i : Instr} {s : State} (hwf : WellFormed i = true) (hhalt : i ≠ .halt)
    (hjump : jumpTarget i s = none) : exec i s = advance i.opcode.length (effect i s) := by
  cases i with
  | load reg address | store address reg =>
    exact (withWordOperand_eq _ _).trans (if_neg (wordAddressLegal_iff.mp hwf))
  | jz address | jnz address => exact (jumpIf_eq _ _ _ _).trans (if_neg (by simpa [jumpTarget] using hjump))
  | jmp address => cases hjump
  | halt => exact absurd rfl hhalt
  | _ => rfl

/-- Where the next address fits, the advance completes. -/
theorem exec_eq_advanced {i : Instr} {s : State} (hwf : WellFormed i = true) (hhalt : i ≠ .halt)
    (hjump : jumpTarget i s = none) (hfit : s.pc.toNat + i.opcode.length ≤ 0xFFFF) :
    exec i s = .next (advanced i s) := by
  rw [exec_eq_advance hwf hhalt hjump, advance_of_le (by rwa [effect_pc]), effect_pc, advanced]

/-- Where the next address does not fit, the advance raises `PcWrap`. -/
theorem exec_eq_pcWrap {i : Instr} {s : State} (hwf : WellFormed i = true) (hhalt : i ≠ .halt)
    (hjump : jumpTarget i s = none) (hwrap : s.pc.toNat + i.opcode.length > 0xFFFF) :
    exec i s = .fault (.pcWrap s.pc) := by
  rw [exec_eq_advance hwf hhalt hjump, advance_of_gt (by rwa [effect_pc]), effect_pc]

/-- The four ways of execution: an illegal operand, HALT, a taken jump, and an effect with an advance. -/
theorem exec_ways (i : Instr) (s : State) :
    WellFormed i = false ∨ i = .halt ∨ (∃ target, jumpTarget i s = some target) ∨
      (WellFormed i = true ∧ i ≠ .halt ∧ jumpTarget i s = none) := by
  cases hwf : WellFormed i with
  | false => exact .inl rfl
  | true =>
    by_cases hhalt : i = .halt
    · exact .inr (.inl hhalt)
    · cases hjump : jumpTarget i s with
      | some target => exact .inr (.inr (.inl ⟨target, rfl⟩))
      | none => exact .inr (.inr (.inr ⟨rfl, hhalt, rfl⟩))

/-- Everything an instruction that completes can have done. -/
theorem exec_next_cases {i : Instr} {s t : State} (h : exec i s = .next t) :
    (i = .halt ∧ t = haltMachine s) ∨
    (∃ target, jumpTarget i s = some target ∧ t = setPc target s) ∨
    (WellFormed i = true ∧ i ≠ .halt ∧ jumpTarget i s = none ∧ s.pc.toNat + i.opcode.length ≤ 0xFFFF ∧
      t = advanced i s) := by
  obtain hill | rfl | ⟨target, hjump⟩ | ⟨hwf, hhalt, hjump⟩ := exec_ways i s
  · rw [exec_of_not_wellFormed hill] at h
    cases h
  · cases h
    exact .inl ⟨rfl, rfl⟩
  · rw [exec_of_jumpTarget hjump] at h
    cases h
    exact .inr (.inl ⟨target, hjump, rfl⟩)
  · rw [exec_eq_advance hwf hhalt hjump, advance_eq_next_iff, effect_pc] at h
    obtain ⟨hfit, rfl⟩ := h
    exact .inr (.inr ⟨hwf, hhalt, hjump, hfit, rfl⟩)

theorem eq_advanced_of_exec {i : Instr} {s t : State} (h : exec i s = .next t) (hhalt : i ≠ .halt)
    (hjump : jumpTarget i s = none) : t = advanced i s := by
  obtain ⟨hi, -⟩ | ⟨_, htaken, -⟩ | ⟨-, -, -, -, ht⟩ := exec_next_cases h
  · exact absurd hi hhalt
  · cases hjump.symm.trans htaken
  · exact ht

/-- Settles O34: the illegal operand first, then the advance, which stops only past 0xFFFF. -/
theorem executionStopsOnlyOnDataWrapOrPcWrap : Obligations.ExecutionStopsOnlyOnDataWrapOrPcWrap := by
  intro i s
  rw [length_encode]
  refine ⟨fun hill => exec_of_not_wellFormed hill s, exec_eq_pcWrap, fun hwf hcompletes => ?_⟩
  obtain hill | rfl | ⟨target, hjump⟩ | ⟨-, hhalt, hjump⟩ := exec_ways i s
  · exact absurd hwf (by rw [hill]; exact Bool.false_ne_true)
  · exact ⟨_, rfl⟩
  · exact ⟨_, exec_of_jumpTarget hjump⟩
  · obtain rfl | htaken | hfit := hcompletes
    · exact absurd rfl hhalt
    · exact absurd hjump htaken
    · exact ⟨_, exec_eq_advanced hwf hhalt hjump hfit⟩

/-! ### Frames of a state that has advanced -/

section
variable {i : Instr} {s : State}

theorem readReg_effect_of_notMem {r : RegIx} (h : r ∉ regsWritten i) : readReg r (effect i s) = readReg r s := by
  cases i with
  | movi dest _ | mov dest _ | load dest _ | add dest _ | sub dest _ =>
    exact readReg_writeResult_other r dest _ s (List.ne_of_not_mem_cons h)
  | cmp => exact (readReg_setC r _ _).trans (readReg_setZ r _ s)
  | _ => rfl

theorem sameRegsExcept_advanced {dest : RegIx} (h : regsWritten i = [dest]) :
    SameRegsExcept dest s (advanced i s) :=
  fun r hr => readReg_effect_of_notMem (by simpa [h] using hr)

theorem sameRegs_advanced (h : regsWritten i = []) : SameRegs s (advanced i s) :=
  fun r => readReg_effect_of_notMem (by simp [h])

theorem effect_mem_of_ne_store (h : ∀ address reg, i ≠ .store address reg) : (effect i s).mem = s.mem := by
  cases i with
  | store address reg => exact absurd rfl (h address reg)
  | cmp => exact (setC_mem _ _).trans (setZ_mem _ s)
  | _ => rfl

theorem sameMemory_advanced (h : ∀ address reg, i ≠ .store address reg) : SameMemory s (advanced i s) :=
  fun a => congrArg (Memory.read · a) (effect_mem_of_ne_store h)

theorem effect_z_of_not_writesZ (h : writesZ i = false) : (effect i s).z = s.z := by
  cases i with
  | movi | mov | load | add | sub | cmp => cases h
  | _ => rfl

theorem effect_c_of_not_writesC (h : writesC i = false) : (effect i s).c = s.c := by
  cases i with
  | add | sub | cmp => cases h
  | movi reg _ | mov reg _ | load reg _ => exact writeResult_c reg _ s
  | store address reg => exact storeWord_c _ _ s
  | jmp | jz | jnz | halt => rfl

end

/-! ### Data movement (40_data_movement.md) -/

/-- Settles O13. -/
theorem moviLoadsItsImmediate : Obligations.MoviLoadsItsImmediate := fun reg imm _ hpc =>
  ⟨_, exec_eq_advanced (i := .movi reg imm) rfl nofun rfl hpc, readReg_writeResult_same _ _ _,
    sameRegsExcept_advanced rfl, rfl, rfl, toNat_pc_advanced hpc, sameMemory_advanced nofun, sameControl_advanced _ _⟩

/-- Settles O14. -/
theorem movCopiesARegister : Obligations.MovCopiesARegister := fun dest src _ hpc =>
  ⟨_, exec_eq_advanced (i := .mov dest src) rfl nofun rfl hpc, readReg_writeResult_same _ _ _,
    sameRegsExcept_advanced rfl, rfl, rfl, toNat_pc_advanced hpc, sameMemory_advanced nofun, sameControl_advanced _ _⟩

/-- Settles O15. -/
theorem loadReadsABigEndianWord : Obligations.LoadReadsABigEndianWord := by
  intro reg address s haddr hpc
  have hvalue : readReg reg (advanced (.load reg address) s) = readWord s.mem address.toNat :=
    readReg_writeResult_same _ _ _
  refine ⟨_, exec_eq_advanced (wordAddressLegal_iff.mpr haddr) nofun rfl hpc, ?_, sameRegsExcept_advanced rfl, ?_,
    rfl, toNat_pc_advanced hpc, sameMemory_advanced nofun, sameControl_advanced _ _⟩
  · rw [hvalue, toNat_readWord]
  · rw [hvalue]
    rfl

/-- Settles O16. -/
theorem storeWritesABigEndianWord : Obligations.StoreWritesABigEndianWord := by
  intro address reg s haddr hpc
  refine ⟨_, exec_eq_advanced (wordAddressLegal_iff.mpr haddr) nofun rfl hpc, fun a ha => ?_,
    sameRegs_advanced rfl, ⟨rfl, rfl⟩, toNat_pc_advanced hpc, sameControl_advanced _ _⟩
  obtain ⟨-, rfl⟩ := effectiveAddress_eq_some_iff.mp ha
  have hread := read_writeWord s.mem address.toNat (readReg reg s)
  exact ⟨rfl, by simp [advanced, effect, hread], by simp [advanced, effect, hread],
    sameMemoryOutside_storeWord _ _ s⟩

/-! ### Arithmetic and comparison (41_arithmetic.md, 42_comparison.md) -/

theorem toNat_addWord (a b : Word) : (addWord a b).toNat = (a.toNat + b.toNat) % 65536 :=
  BitVec.toNat_ofNat _ _

theorem toNat_subWord (a b : Word) :
    (subWord a b).toNat = if b.toNat ≤ a.toNat then a.toNat - b.toNat else a.toNat + 65536 - b.toNat := by
  have ha := a.isLt
  rw [subWord, BitVec.toNat_ofNat]
  split <;> omega

theorem zeroFlag_eq_decide_toNat (v : Word) : zeroFlag v = decide (v.toNat = 0) :=
  decide_eq_decide.mpr BitVec.toNat_eq

/-- The difference is zero exactly when the operands are equal. -/
theorem zeroFlag_subWord (a b : Word) : zeroFlag (subWord a b) = decide (a = b) := by
  have ha := a.isLt
  rw [zeroFlag_eq_decide_toNat, toNat_subWord, decide_eq_decide, BitVec.toNat_eq]
  split <;> omega

/-- Settles O17. -/
theorem addWrapsAndCarries : Obligations.AddWrapsAndCarries := by
  intro dest src s hpc sum
  refine ⟨_, exec_eq_advanced (i := .add dest src) rfl nofun rfl hpc, ?_, sameRegsExcept_advanced rfl, ?_, rfl,
    toNat_pc_advanced hpc, sameMemory_advanced nofun, sameControl_advanced _ _⟩
  · exact (congrArg _ (readReg_writeResult_same _ _ _)).trans (toNat_addWord _ _)
  · exact (zeroFlag_eq_decide_toNat _).trans (by rw [toNat_addWord])

/-- Settles O18. -/
theorem subWrapsAndBorrows : Obligations.SubWrapsAndBorrows := by
  intro dest src s hpc a b
  refine ⟨_, exec_eq_advanced (i := .sub dest src) rfl nofun rfl hpc, ?_, sameRegsExcept_advanced rfl, ?_, rfl,
    toNat_pc_advanced hpc, sameMemory_advanced nofun, sameControl_advanced _ _⟩
  · exact (congrArg _ (readReg_writeResult_same _ _ _)).trans (toNat_subWord _ _)
  · exact (zeroFlag_subWord _ _).trans (decide_eq_decide.mpr BitVec.toNat_eq)

/-- Settles O19. -/
theorem cmpSetsFlagsOnly : Obligations.CmpSetsFlagsOnly := fun regA regB _ hpc =>
  ⟨_, exec_eq_advanced (i := .cmp regA regB) rfl nofun rfl hpc, sameRegs_advanced rfl, zeroFlag_subWord _ _, rfl,
    toNat_pc_advanced hpc, sameMemory_advanced nofun, sameControl_advanced _ _⟩

/-- SUB and CMP leave the same two flags: whether the operands are equal, and whether the first is smaller. -/
theorem flags_advanced_sub (a b : RegIx) (s : State) :
    (advanced (.sub a b) s).z = decide (readReg a s = readReg b s) ∧
      (advanced (.sub a b) s).c = decide ((readReg a s).toNat < (readReg b s).toNat) :=
  ⟨zeroFlag_subWord _ _, rfl⟩

theorem flags_advanced_cmp (a b : RegIx) (s : State) :
    (advanced (.cmp a b) s).z = decide (readReg a s = readReg b s) ∧
      (advanced (.cmp a b) s).c = decide ((readReg a s).toNat < (readReg b s).toNat) :=
  ⟨zeroFlag_subWord _ _, rfl⟩

/-- Settles O31: the flags are those of one comparison, and SUB's effect is one register more. -/
theorem cmpIsSubWithoutTheResult : Obligations.CmpIsSubWithoutTheResult := by
  intro a b s hpc
  have hcmp : SameRegs s (advanced (.cmp a b) s) := sameRegs_advanced rfl
  have hsub : SameRegsExcept a s (advanced (.sub a b) s) := sameRegsExcept_advanced rfl
  have hmemCmp : SameMemory s (advanced (.cmp a b) s) := sameMemory_advanced nofun
  have hmemSub : SameMemory s (advanced (.sub a b) s) := sameMemory_advanced nofun
  obtain ⟨hzSub, hcSub⟩ := flags_advanced_sub a b s
  obtain ⟨hzCmp, hcCmp⟩ := flags_advanced_cmp a b s
  refine ⟨_, _, exec_eq_advanced (i := .sub a b) rfl nofun rfl hpc,
    exec_eq_advanced (i := .cmp a b) rfl nofun rfl hpc, ⟨hzSub.trans hzCmp.symm, hcSub.trans hcCmp.symm⟩, rfl, fun addr => ?_, fun r hr => ?_, hcmp⟩
  · rw [hmemSub addr, hmemCmp addr]
  · rw [hsub r hr, hcmp r]

theorem flags_of_exec_cmp_or_sub {i : Instr} {a b : RegIx} {s t : State} (hi : i = .cmp a b ∨ i = .sub a b)
    (h : exec i s = .next t) :
    t.z = decide (readReg a s = readReg b s) ∧ t.c = decide ((readReg a s).toNat < (readReg b s).toNat) := by
  obtain rfl | rfl := hi
  · obtain rfl := eq_advanced_of_exec h nofun rfl
    exact flags_advanced_cmp a b s
  · obtain rfl := eq_advanced_of_exec h nofun rfl
    exact flags_advanced_sub a b s

/-- Settles O32: the order of two numbers from "equal" and "smaller". -/
theorem flagsTellTheUnsignedOrder : Obligations.FlagsTellTheUnsignedOrder := by
  intro i a b s t hi h
  obtain ⟨hz, hc⟩ := flags_of_exec_cmp_or_sub hi h
  simp only [hz, hc, decide_eq_true_eq, decide_eq_false_iff_not, BitVec.toNat_eq]
  omega

/-! ### Control flow and HALT (43_control_flow.md, 44_system.md) -/

/-- Settles O20: JMP by definition, JZ and JNZ by the two ways of a conditional jump. -/
theorem jumpsChangeThePcOnly : Obligations.JumpsChangeThePcOnly := fun address s =>
  ⟨rfl, fun hz => jumpIf_of_taken hz _ address s, fun hz => jumpIf_of_taken (congrArg not hz) _ address s,
    fun hnext hz => jumpIf_of_not_taken hz hnext address,
    fun hnext hz => jumpIf_of_not_taken (congrArg not hz) hnext address⟩

/-- Settles O21. -/
theorem haltStopsAndKeepsTheState : Obligations.HaltStopsAndKeepsTheState := fun s =>
  ⟨haltMachine s, rfl, rfl, fun _ => rfl, ⟨rfl, rfl⟩, rfl⟩

/-! ### The idioms of one register (30_encoding.md section 6) -/

theorem addWord_self (v : Word) : addWord v v = v <<< 1 := by
  apply BitVec.eq_of_toNat_eq
  rw [toNat_addWord, BitVec.toNat_shiftLeft, Nat.shiftLeft_eq, pow_one, Nat.mul_two]

/-- Doubling carries exactly when bit 15 is set. -/
theorem addCarry_self (v : Word) : addCarry v v = v.getLsbD 15 := by
  rw [← BitVec.msb_eq_getLsbD_last, BitVec.msb_eq_decide, addCarry, decide_eq_decide]
  omega

theorem subWord_self (v : Word) : subWord v v = 0 := by
  apply BitVec.eq_of_toNat_eq
  rw [toNat_subWord, if_pos le_rfl, Nat.sub_self]
  rfl

theorem subBorrow_self (v : Word) : subBorrow v v = false :=
  decide_eq_false (Nat.lt_irrefl _)

theorem zeroFlag_subWord_self (v : Word) : zeroFlag (subWord v v) = true := by
  rw [zeroFlag_subWord, decide_eq_true rfl]

/-- Writing a register's own value back leaves every register. -/
theorem readReg_writeResult_self (q r : RegIx) (s : State) :
    readReg q (writeResult r (readReg r s) s) = readReg q s := by
  by_cases h : q = r
  · rw [h, readReg_writeResult_same]
  · exact readReg_writeResult_other q r _ s h

/-- Settles O33: each instruction's effect on one register, by the laws of its operation on equal operands. -/
theorem oneRegisterIdioms : Obligations.OneRegisterIdioms := by
  intro r s hpc
  refine ⟨⟨_, exec_eq_advanced (i := .sub r r) rfl nofun rfl hpc, ?_, zeroFlag_subWord_self _, subBorrow_self _⟩,
    ⟨_, exec_eq_advanced (i := .cmp r r) rfl nofun rfl hpc, sameRegs_advanced rfl, zeroFlag_subWord_self _,
      subBorrow_self _⟩,
    ⟨_, exec_eq_advanced (i := .mov r r) rfl nofun rfl hpc, (readReg_writeResult_self · r s), rfl⟩,
    ⟨_, exec_eq_advanced (i := .add r r) rfl nofun rfl hpc, ?_, addCarry_self _⟩, rfl⟩
  · exact (readReg_writeResult_same _ _ _).trans (subWord_self _)
  · exact (readReg_writeResult_same _ _ _).trans (addWord_self _)

end Sys2Proof.Machine
end

section
/-! Frames over every instruction (10_state.md sections 2 to 6): what an instruction that completes leaves unchanged, where
its pc goes, and that it depends on no register it does not read; with them, O25 to O30. -/

namespace Sys2Proof.Machine

/-! ### What an instruction leaves unchanged -/

/-- Settles O25. -/
theorem onlyTheDestinationRegisterChanges : Obligations.OnlyTheDestinationRegisterChanges := by
  intro i s t h r hr
  obtain ⟨-, rfl⟩ | ⟨target, -, rfl⟩ | ⟨-, -, -, -, rfl⟩ := exec_next_cases h
  · exact readReg_haltMachine r s
  · exact readReg_setPc r target s
  · exact readReg_effect_of_notMem hr

/-- Settles O26: a STORE that completes has a place, where it stores; nothing else writes memory. -/
theorem onlyTheStoredWordChanges : Obligations.OnlyTheStoredWordChanges := by
  intro i s t h
  by_cases hstore : ∃ address reg, i = .store address reg
  · obtain ⟨address, reg, rfl⟩ := hstore
    obtain ⟨a, hplace, -, hmem⟩ := mem_of_exec_store h
    refine ⟨fun w hw b hfirst hsecond => ?_, fun hnone => absurd (hplace.symm.trans hnone) nofun⟩
    obtain rfl : a = w := Option.some.inj (hplace.symm.trans hw)
    rw [hmem]
    exact sameMemoryOutside_storeWord a _ s b hfirst hsecond
  · have hsame : SameMemory s t := fun b => by
      rw [mem_of_exec_of_ne_store h fun address reg hi => hstore ⟨address, reg, hi⟩]
    exact ⟨fun _ _ b _ _ => hsame b, fun _ => hsame⟩

/-- Settles O27. -/
theorem onlyTheNamedFlagsChange : Obligations.OnlyTheNamedFlagsChange := by
  intro i s t h
  obtain ⟨-, rfl⟩ | ⟨_, -, rfl⟩ | ⟨-, -, -, -, rfl⟩ := exec_next_cases h
  · exact ⟨fun _ => rfl, fun _ => rfl⟩
  · exact ⟨fun _ => rfl, fun _ => rfl⟩
  · exact ⟨effect_z_of_not_writesZ, effect_c_of_not_writesC⟩

/-- HALT takes no jump. -/
theorem ne_halt_of_jumpTarget {i : Instr} {s : State} {target : Word} (h : jumpTarget i s = some target) :
    i ≠ .halt := by
  rintro rfl
  cases h

/-- Settles O28. -/
theorem onlyHaltChangesTheRunStatus : Obligations.OnlyHaltChangesTheRunStatus := by
  intro i s t h
  obtain ⟨rfl, rfl⟩ | ⟨_, hjump, rfl⟩ | ⟨-, hhalt, -, -, rfl⟩ := exec_next_cases h
  · exact ⟨fun _ => rfl, fun hne => absurd rfl hne⟩
  · exact ⟨fun hi => absurd hi (ne_halt_of_jumpTarget hjump), fun _ => ⟨rfl, rfl⟩⟩
  · exact ⟨fun hi => absurd hi hhalt, fun _ => sameControl_advanced i s⟩

/-- Settles O29. -/
theorem pcAdvancesUnlessAJumpIsTaken : Obligations.PcAdvancesUnlessAJumpIsTaken := by
  intro i s t h hne
  rw [length_encode]
  obtain ⟨rfl, -⟩ | ⟨target, hjump, rfl⟩ | ⟨-, -, hjump, hfit, rfl⟩ := exec_next_cases h
  · exact absurd rfl hne
  · exact ⟨fun _ hi => Option.some.inj (hjump.symm.trans hi), fun hnone => absurd (hjump.symm.trans hnone) nofun⟩
  · exact ⟨fun _ hi => absurd (hjump.symm.trans hi) nofun, fun _ => toNat_pc_advanced hfit⟩

/-! ### Registers that are not read (R11) -/

theorem writeReg_writeReg_same (r : RegIx) (v w : Word) (s : State) :
    writeReg r w (writeReg r v s) = writeReg r w s := by
  simp [writeReg]

theorem writeReg_comm {q r : RegIx} (h : q ≠ r) (v w : Word) (s : State) :
    writeReg q w (writeReg r v s) = writeReg r v (writeReg q w s) := by
  have hval : r.val ≠ q.val := fun e => h (Fin.ext e.symm)
  simp [writeReg, Vector.set_comm _ _ hval]

theorem setZ_writeReg (b : Bool) (r : RegIx) (v : Word) (s : State) :
    setZ b (writeReg r v s) = writeReg r v (setZ b s) := rfl

theorem setC_writeReg (b : Bool) (r : RegIx) (v : Word) (s : State) :
    setC b (writeReg r v s) = writeReg r v (setC b s) := rfl

theorem storeWord_writeReg (a : Nat) (w : Word) (r : RegIx) (v : Word) (s : State) :
    storeWord a w (writeReg r v s) = writeReg r v (storeWord a w s) := rfl

/-- A result written after another value was put in a register: that value is lost where the register is the
destination, and stays as it is otherwise. -/
theorem writeResult_writeReg (dest r : RegIx) (v w : Word) (s : State) :
    writeResult dest w (writeReg r v s) =
      if r = dest then writeResult dest w s else writeReg r v (writeResult dest w s) := by
  split
  · next h => rw [h, writeResult, writeReg_writeReg_same, writeResult]
  · next h => rw [writeResult, writeReg_comm (Ne.symm h), setZ_writeReg, writeResult]

/-- The effect of an instruction after a register it does not read got another value: the same effect, with that value
kept in the register unless the instruction writes it. -/
theorem effect_writeReg {i : Instr} {r : RegIx} (hr : r ∉ regsRead i) (v : Word) (s : State) :
    effect i (writeReg r v s) = if r ∈ regsWritten i then effect i s else writeReg r v (effect i s) := by
  cases i with
  | movi dest _ | load dest _ => simp [effect, regsWritten, writeResult_writeReg]
  | mov dest src =>
    have hsrc : src ≠ r := fun e => hr (by simp [regsRead, e])
    simp [effect, regsWritten, writeResult_writeReg, readReg_writeReg_other _ _ _ _ hsrc]
  | store address reg =>
    have hreg : reg ≠ r := fun e => hr (by simp [regsRead, e])
    simp [effect, regsWritten, storeWord_writeReg, readReg_writeReg_other _ _ _ _ hreg]
  | add a b | sub a b =>
    have ha : a ≠ r := fun e => hr (by simp [regsRead, e])
    have hb : b ≠ r := fun e => hr (by simp [regsRead, e])
    simp [effect, regsWritten, writeResult_writeReg, setC_writeReg, ha.symm,
      readReg_writeReg_other _ _ _ _ ha, readReg_writeReg_other _ _ _ _ hb]
  | cmp a b =>
    have ha : a ≠ r := fun e => hr (by simp [regsRead, e])
    have hb : b ≠ r := fun e => hr (by simp [regsRead, e])
    rw [effect, effect, readReg_writeReg_other _ _ _ _ ha, readReg_writeReg_other _ _ _ _ hb, setZ_writeReg,
      setC_writeReg, regsWritten, if_neg List.not_mem_nil]
  | jmp | jz | jnz | halt => simp [effect, regsWritten]

/-- What an instruction reaches after a register `r` it does not read got the value `v`, where it had reached `t`: the
same state, with that value in the register unless the instruction writes it. -/
def withUnreadReg (i : Instr) (r : RegIx) (v : Word) (t : State) : State :=
  if r ∈ regsWritten i then t else writeReg r v t

theorem advanced_writeReg {i : Instr} {r : RegIx} (hr : r ∉ regsRead i) (v : Word) (s : State) :
    advanced i (writeReg r v s) = withUnreadReg i r v (advanced i s) := by
  rw [advanced, effect_writeReg hr, withUnreadReg]
  split <;> rfl

/-- A taken jump writes no register. -/
theorem regsWritten_of_jumpTarget {i : Instr} {s : State} {target : Word} (h : jumpTarget i s = some target) :
    regsWritten i = [] := by
  cases i with
  | jmp | jz | jnz => rfl
  | _ => cases h

theorem jumpTarget_writeReg (i : Instr) (r : RegIx) (v : Word) (s : State) :
    jumpTarget i (writeReg r v s) = jumpTarget i s := by
  cases i <;> rfl

/-- Execution after a register it does not read got another value goes the same way. -/
theorem exec_writeReg {i : Instr} {r : RegIx} (hr : r ∉ regsRead i) (v : Word) (s : State) :
    (∃ f, exec i s = .fault f ∧ exec i (writeReg r v s) = .fault f) ∨
      ∃ t, exec i s = .next t ∧ exec i (writeReg r v s) = .next (withUnreadReg i r v t) := by
  obtain hill | rfl | ⟨target, hjump⟩ | ⟨hwf, hhalt, hjump⟩ := exec_ways i s
  · exact .inl ⟨_, exec_of_not_wellFormed hill s, exec_of_not_wellFormed hill _⟩
  · exact .inr ⟨_, rfl, rfl⟩
  · refine .inr ⟨_, exec_of_jumpTarget hjump, ?_⟩
    rw [exec_of_jumpTarget ((jumpTarget_writeReg i r v s).trans hjump), withUnreadReg, regsWritten_of_jumpTarget hjump]
    rfl
  · have hjump' := (jumpTarget_writeReg i r v s).trans hjump
    by_cases hfit : s.pc.toNat + i.opcode.length ≤ 0xFFFF
    · refine .inr ⟨_, exec_eq_advanced hwf hhalt hjump hfit, ?_⟩
      rw [exec_eq_advanced hwf hhalt hjump' hfit, advanced_writeReg hr]
    · exact .inl ⟨_, exec_eq_pcWrap hwf hhalt hjump (not_le.mp hfit),
        exec_eq_pcWrap hwf hhalt hjump' (not_le.mp hfit)⟩

/-- Settles O30: the two executions go the same way, and the states they reach differ in the one register only. -/
theorem registersNotReadHaveNoInfluence : Obligations.RegistersNotReadHaveNoInfluence := by
  intro i r v s hr
  obtain ⟨f, hs, hwritten⟩ | ⟨t, hs, hwritten⟩ := exec_writeReg hr v s
  · rw [hs, hwritten]
    exact ⟨fun _ hf => hf, nofun⟩
  · rw [hs, hwritten]
    refine ⟨nofun, fun t' ht => ?_⟩
    obtain rfl : t = t' := Host.Outcome.next.inj ht
    refine ⟨_, rfl, ?_⟩
    by_cases hmem : r ∈ regsWritten i
    · have hsame : withUnreadReg i r v t = t := if_pos hmem
      rw [hsame, if_pos hmem]
      exact ⟨fun _ _ => rfl, rfl, ⟨rfl, rfl⟩, rfl, ⟨rfl, rfl⟩, fun _ => rfl⟩
    · have hput : withUnreadReg i r v t = writeReg r v t := if_neg hmem
      rw [hput, if_neg hmem]
      exact ⟨fun q hq => readReg_writeReg_other q r v t hq, readReg_writeReg_same r v t, ⟨rfl, rfl⟩, rfl,
        ⟨rfl, rfl⟩, fun _ => rfl⟩

end Sys2Proof.Machine
end

section
/-! Steps and faults (30_encoding.md section 5, 60_exceptions.md section 1): which bytes at the pc fault, what the fetch sees
of the bytes put in memory before it, and HALT's byte; with them, O35 to O38 and O41 to O43. -/

namespace Sys2Proof.Machine

/-! ### Faults of the fetch (R58, R35, R59) -/

theorem step_of_fetch_stop {s : State} {f : Fault} (hrun : s.status = .running) (h : fetchDecode s = .stop f) :
    step s = .fault f := by
  rw [step_running hrun, h]

theorem opcodeLength_eq_none_of_undefined {b : Byte} (h : b = 0x00 ∨ (0x0B ≤ b.toNat ∧ b.toNat ≤ 0xFE)) :
    opcodeLength b = none := by
  refine opcodeLength_eq_none_of_forall_ne ?_
  rintro op rfl
  cases op <;> revert h <;> decide

theorem opcodeLength_eq_four {b : Byte} (h : b.toNat ∈ [0x01, 0x03, 0x04]) : opcodeLength b = some 4 := by
  simp only [List.mem_cons, List.not_mem_nil, or_false] at h
  obtain h | h | h := h <;> simp [opcodeLength, opcodeOf, h]

theorem opcodeLength_eq_three {b : Byte} (h : b.toNat ∈ [0x02, 0x05, 0x06, 0x07, 0x08, 0x09, 0x0A]) :
    opcodeLength b = some 3 := by
  simp only [List.mem_cons, List.not_mem_nil, or_false] at h
  obtain h | h | h | h | h | h | h := h <;> simp [opcodeLength, opcodeOf, h]

/-- Settles O35. -/
theorem undefinedOpcodesFault : Obligations.UndefinedOpcodesFault := fun _ hrun hbyte =>
  step_of_fetch_stop hrun (fetchDecode_illegal (opcodeLength_eq_none_of_undefined hbyte))

/-- Settles O36. -/
theorem instructionsPastTheTopFault : Obligations.InstructionsPastTheTopFault := by
  refine fun s hrun => ⟨fun hbyte htop => ?_, fun hbyte htop => ?_⟩
  · exact step_of_fetch_stop hrun (fetchDecode_wrap (opcodeLength_eq_four hbyte) (by omega))
  · exact step_of_fetch_stop hrun (fetchDecode_wrap (opcodeLength_eq_three hbyte) (by omega))

/-- A fitting instruction whose bytes the decoder refuses for a register byte. -/
theorem step_of_decode_invalidRegister {s : State} {len : Nat} (hrun : s.status = .running)
    (hlen : opcodeLength (s.mem.read s.pc.toNat) = some len) (hfit : s.pc.toNat + len - 1 ≤ 0xFFFF)
    (h : decode (s.mem.bytes s.pc.toNat len) = .invalidRegister) : step s = .fault (.invalidRegister s.pc) :=
  step_of_fetch_stop hrun (by rw [fetchDecode_fits hlen hfit, h])

section
variable {b0 b1 b2 b3 : Byte}

theorem decode_invalid_first_of_four (h0 : b0.toNat ∈ [0x01, 0x03]) (h1 : 15 < b1.toNat) :
    decode [b0, b1, b2, b3] = .invalidRegister := by
  have hnone := (registerOfByte_eq_none_iff b1).mpr h1
  simp only [List.mem_cons, List.not_mem_nil, or_false] at h0
  obtain h0 | h0 := h0 <;> simp [decode, opcodeOf, h0, decodeOperands, decodeRegWord, hnone]

theorem decode_invalid_last_of_four (h0 : b0.toNat = 0x04) (h3 : 15 < b3.toNat) :
    decode [b0, b1, b2, b3] = .invalidRegister := by
  have hnone := (registerOfByte_eq_none_iff b3).mpr h3
  simp [decode, opcodeOf, h0, decodeOperands, decodeWordReg, hnone]

theorem decodeRegReg_invalid (mk : RegIx → RegIx → Instr) (h : 15 < b1.toNat ∨ 15 < b2.toNat) :
    decodeRegReg mk [b1, b2] = .invalidRegister := by
  obtain h | h := h
  · simp [decodeRegReg, (registerOfByte_eq_none_iff b1).mpr h]
  · simp [decodeRegReg, (registerOfByte_eq_none_iff b2).mpr h]

theorem decode_invalid_of_three (h0 : b0.toNat ∈ [0x02, 0x05, 0x06, 0x07]) (h : 15 < b1.toNat ∨ 15 < b2.toNat) :
    decode [b0, b1, b2] = .invalidRegister := by
  simp only [List.mem_cons, List.not_mem_nil, or_false] at h0
  obtain h0 | h0 | h0 | h0 := h0 <;> simp [decode, opcodeOf, h0, decodeOperands, decodeRegReg_invalid _ h]

end

/-- Settles O37: in each format that has register bytes, the decoder refuses one above 15. -/
theorem registerBytesAboveFifteenFault : Obligations.RegisterBytesAboveFifteenFault := by
  refine fun s hrun => ⟨fun hbyte hfit hreg => ?_, fun hbyte hfit hreg => ?_, fun hbyte hfit hreg => ?_⟩
  · exact step_of_decode_invalidRegister hrun (opcodeLength_eq_four (by simp at hbyte ⊢; omega)) hfit
      (decode_invalid_first_of_four hbyte hreg)
  · exact step_of_decode_invalidRegister hrun (opcodeLength_eq_four (by simp [hbyte])) hfit
      (decode_invalid_last_of_four hbyte hreg)
  · exact step_of_decode_invalidRegister hrun (opcodeLength_eq_three (by simp at hbyte ⊢; omega)) hfit
      (decode_invalid_of_three hbyte hreg)

/-! ### A running machine always has a step -/

/-- Execution completes or raises one of its two faults. -/
theorem exec_next_or_fault (i : Instr) (s : State) :
    (∃ t, exec i s = .next t) ∨ ∃ f k, exec i s = .fault f ∧ f.kind = some k := by
  obtain hill | rfl | ⟨target, hjump⟩ | ⟨hwf, hhalt, hjump⟩ := exec_ways i s
  · exact .inr ⟨_, _, exec_of_not_wellFormed hill s, rfl⟩
  · exact .inl ⟨_, rfl⟩
  · exact .inl ⟨_, exec_of_jumpTarget hjump⟩
  · by_cases hfit : s.pc.toNat + i.opcode.length ≤ 0xFFFF
    · exact .inl ⟨_, exec_eq_advanced hwf hhalt hjump hfit⟩
    · exact .inr ⟨_, _, exec_eq_pcWrap hwf hhalt hjump (not_le.mp hfit), rfl⟩

/-- Settles O38: fetching gives an instruction or one of its three faults. -/
theorem runningMachineCompletesOrRaisesAFault : Obligations.RunningMachineCompletesOrRaisesAFault := by
  intro s hrun
  obtain ⟨i, _, _, hi, -⟩ | ⟨b, hf⟩ | hf | hf := fetchDecode_cases s
  · have hstep : step s = exec i s := by rw [step_running hrun, hi]
    rw [hstep]
    exact exec_next_or_fault i s
  all_goals exact .inr ⟨_, _, step_of_fetch_stop hrun hf, rfl⟩

/-! ### What the fetch sees (R57) -/

/-- Settles O41: bytes that decode to an instruction with nothing left are its encoding. -/
theorem stepRunsTheDecodedInstruction : Obligations.StepRunsTheDecodedInstruction := by
  intro s i hrun hfit hdecode
  refine step_eq_exec_of_bytes hrun hfit ?_
  rw [eq_encode_append_of_decode hdecode, List.append_nil]

theorem Memory.getElem?_bytes (m : Memory) {a n k : Nat} (h : k < n) :
    (m.bytes a n)[k]? = some (m.read (a + k)) := by
  induction n generalizing a k with
  | zero => exact absurd h (Nat.not_lt_zero k)
  | succ n ih =>
    cases k with
    | zero => rfl
    | succ k =>
      rw [Memory.bytes, List.getElem?_cons_succ, ih (Nat.lt_of_succ_lt_succ h), Nat.add_right_comm, Nat.add_assoc]

/-- The byte 0xFF at the pc of a running machine halts it, at any address (44_system.md R105). -/
theorem step_of_halt_byte {s : State} (hrun : s.status = .running) (hbyte : s.mem.read s.pc.toNat = 0xFF) :
    step s = .next (haltMachine s) :=
  step_eq_exec_of_bytes (i := .halt) hrun s.pc.isLt (congrArg (fun b => [b]) hbyte)

/-- What every byte reads as after a word is stored, the first byte's address tried first. -/
theorem read_writeWord_extractLsb (m : Memory) (a : Nat) (v : Word) (b : Nat) :
    (writeWord m a v).read b =
      if b = a then v.extractLsb 15 8 else if b = a + 1 then v.extractLsb 7 0 else m.read b := by
  rw [read_writeWord, highByte_eq_extractLsb, lowByte_eq_extractLsb]
  by_cases hfirst : b = a
  · rw [if_neg (by omega), if_pos hfirst, if_pos hfirst]
  · rw [if_neg hfirst, if_neg hfirst]

/-- Settles O42: what is read after a stored word, and HALT's byte where the STORE has advanced to. -/
theorem nextFetchSeesTheStore : Obligations.NextFetchSeesTheStore := by
  intro address reg s t a h hplace
  obtain ⟨-, hfit, rfl⟩ := exec_store_eq_next_iff.mp h
  obtain ⟨-, rfl⟩ := effectiveAddress_eq_some_iff.mp hplace
  refine ⟨fun p n k hk => ?_, fun hrun hnext hbyte => ⟨_, step_of_halt_byte hrun ?_, rfl⟩⟩
  · rw [Memory.getElem?_bytes _ hk, setPc_mem, storeWord_mem, read_writeWord_extractLsb]
  · rw [setPc_pc, toNat_nextPc hfit, ← hnext, ← hbyte]
    exact read_writeWord_first _ _ _

/-! ### Bytes placed at the pc (log entry 9) -/

@[simp] theorem length_numberBytes (w n : Nat) : (numberBytes w n).length = n := by
  induction n with
  | zero => rfl
  | succ n ih => rw [numberBytes, List.length_cons, ih]

/-- A table word of at most 32 bits makes up four bytes. -/
theorem length_tableWordBytes {nbits : Nat} (h : nbits ≤ 32) (w : Nat) : (tableWordBytes nbits w).length = 4 := by
  rw [tableWordBytes, List.length_append, length_numberBytes, List.length_replicate, maxLength]
  omega

/-- Bytes placed inside the address space are fetched from where they were placed. -/
theorem Memory.bytes_placeBytes (m : Memory) {a : Nat} {front back : List Byte}
    (h : a + (front ++ back).length ≤ Config.memSize) :
    (placeBytes m a (front ++ back)).bytes a front.length = front := by
  rw [List.length_append] at h
  refine List.ext_getElem (Memory.length_bytes _ _ _) fun k hk hfront => ?_
  have hplaced : a ≤ a + k ∧ a + k < a + (front ++ back).length ∧ a + k < Config.memSize := by
    rw [List.length_append]
    omega
  rw [List.getElem_eq_iff, Memory.getElem?_bytes _ hfront, read_placeBytes, dif_pos hplaced]
  simp [hfront]

theorem decode_of_decodeTableWord {nbits w : Nat} {i : Instr} (h : decodeTableWord nbits w = some i) :
    ∃ rest, decode (tableWordBytes nbits w) = .ok i rest := by
  cases hdecode : decode (tableWordBytes nbits w) <;> simp [decodeTableWord, hdecode] at h
  exact ⟨_, by rw [h]⟩

/-- Settles O43: the word's bytes begin with the instruction's encoding, and four bytes fit at the pc. -/
theorem placedTableWordRunsNext : Obligations.PlacedTableWordRunsNext := by
  intro s nbits w i hpc hbits h
  obtain ⟨rest, hdecode⟩ := decode_of_decodeTableWord h
  have hbytes := eq_encode_append_of_decode hdecode
  have hlen : (encode i ++ rest).length = 4 := by rw [← hbytes, length_tableWordBytes hbits]
  have hplaced := Memory.bytes_placeBytes (a := s.pc.toNat) (front := encode i) (back := rest) s.mem (hlen ▸ hpc)
  rw [← hbytes] at hplaced
  rw [List.length_append] at hlen
  refine step_eq_exec_of_bytes rfl ?_ hplaced
  exact (Nat.add_le_add_left (by omega) _).trans hpc

end Sys2Proof.Machine
end

section
/-! Runs (10_state.md section 6, 70_reset_and_hazards.md section 3): a machine that has stopped stays as it is, so a run has
one fate, and a simulation shows what the fate does not depend on; with them, O23, O24, O39, O40 and O48 to O50. -/

namespace Sys2Proof.Machine

/-! ### Stopped machines (R18) -/

theorem stateAfter_of_next {s t : State} (h : step s = .next t) : stateAfter s (step s) = t := by
  rw [h, stateAfter]

theorem stateAfter_of_fault {s : State} {f : Fault} {k : FaultKind} (h : step s = .fault f) (hk : f.kind = some k) :
    stateAfter s (step s) = enterFaulted k s := by
  simp only [h, stateAfter, hk]

theorem stateAfter_of_stopped {s : State} (h : s.status ≠ .running) : stateAfter s (step s) = s := by
  obtain ⟨f, hstep, hkind⟩ := step_stopped h
  simp only [hstep, stateAfter, hkind]

theorem machineAfter_of_stopped {s : State} (h : s.status ≠ .running) (n : Nat) : machineAfter n s = s := by
  induction n with
  | zero => rfl
  | succ n ih => rw [machineAfter, stateAfter_of_stopped h, ih]

theorem step_ne_next_of_stopped {s : State} (h : s.status ≠ .running) (t : State) : step s ≠ .next t := by
  obtain ⟨f, hstep, -⟩ := step_stopped h
  simp [hstep]

/-- Settles O40. -/
theorem stoppedMachineNeverSteps : Obligations.StoppedMachineNeverSteps :=
  fun _ h => ⟨step_ne_next_of_stopped h, machineAfter_of_stopped h⟩

/-- Settles O39: the step enters the faulted status, and a faulted machine stays. -/
theorem aFaultEndsTheRun : Obligations.AFaultEndsTheRun := by
  intro s f hrun h
  obtain ⟨t, hnext⟩ | ⟨f', k, hfault, hk⟩ := runningMachineCompletesOrRaisesAFault s hrun
  · cases h.symm.trans hnext
  · obtain rfl : f = f' := Host.Outcome.fault.inj (h.symm.trans hfault)
    have hafter (n : Nat) : machineAfter (n + 1) s = enterFaulted k s := by
      rw [machineAfter, stateAfter_of_fault h hk, machineAfter_of_stopped (s := enterFaulted k s) nofun]
    exact ⟨k, hk, fun n => by rw [fateWithin, hafter]; exact ⟨rfl, rfl⟩⟩

/-- Settles O23: the byte's step is HALT's, and a halted machine stays. -/
theorem haltByteEndsTheRun : Obligations.HaltByteEndsTheRun := by
  intro s hrun hbyte
  have hstep := step_of_halt_byte hrun hbyte
  have hstopped : (haltMachine s).status ≠ .running := nofun
  refine ⟨⟨_, hstep, rfl, fun _ => rfl, ⟨rfl, rfl⟩, rfl, step_ne_next_of_stopped hstopped⟩, fun n => ?_⟩
  rw [fateWithin, machineAfter, stateAfter_of_next hstep, machineAfter_of_stopped hstopped]
  rfl

/-! ### A run that never ends (43_control_flow.md section 2) -/

theorem machineAfter_of_step_self {s : State} (h : step s = .next s) (n : Nat) : machineAfter n s = s := by
  induction n with
  | zero => rfl
  | succ n ih => rw [machineAfter, stateAfter_of_next h, ih]

/-- Settles O24: the jump's target is the pc it is set from. -/
theorem jumpToItselfNeverEnds : Obligations.JumpToItselfNeverEnds := by
  intro s hrun hfit hop htarget n
  have hself : machineAfter n s = s := machineAfter_of_step_self (step_jmp hrun hfit htarget hop) n
  refine ⟨hself, ?_⟩
  rw [fateWithin, hself, fateShown, hrun]

/-! ### One fate (R141) -/

theorem machineAfter_add (n k : Nat) (s : State) : machineAfter (n + k) s = machineAfter k (machineAfter n s) := by
  induction n generalizing s with
  | zero => rw [Nat.zero_add, machineAfter]
  | succ n ih => rw [Nat.succ_add, machineAfter, ih, machineAfter]

theorem stopped_of_fateShown {s : State} {f : Fate} (h : fateShown s = some f) : s.status ≠ .running := by
  intro hrun
  simp [fateShown, hrun] at h

/-- Settles O48: a fate is shown by a stopped machine, which stays. -/
theorem aRunHasOneFate : Obligations.ARunHasOneFate := by
  intro n m s f hle h
  obtain ⟨k, rfl⟩ := Nat.exists_eq_add_of_le hle
  rw [fateWithin, machineAfter_add, machineAfter_of_stopped (stopped_of_fateShown h)]
  exact h

/-! ### What the fate does not depend on -/

/-- Two machines alike in everything that steers a run: registers, Z, memory and run status, and the pc of a machine that
runs. Their carry flags are in a relation, and the numbers of their free values may be any. -/
structure Alike (Carry : Bool → Bool → Prop) (s s' : State) : Prop where
  regs : s.regs = s'.regs
  z : s.z = s'.z
  carry : Carry s.c s'.c
  mem : s.mem = s'.mem
  status : s.status = s'.status
  pc : s.status = .running → s.pc = s'.pc

section
variable {Carry : Bool → Bool → Prop} {s s' : State}

theorem Alike.fetchDecode_eq (h : Alike Carry s s') (hrun : s.status = .running) : fetchDecode s = fetchDecode s' := by
  simp only [fetchDecode, h.mem, h.pc hrun]

theorem Alike.readReg_eq (h : Alike Carry s s') (r : RegIx) : readReg r s = readReg r s' := by
  simp only [readReg, h.regs]

theorem Alike.jumpTarget_eq (h : Alike Carry s s') (i : Instr) : jumpTarget i s = jumpTarget i s' := by
  cases i <;> simp only [jumpTarget, h.z]

theorem Alike.setPc (h : Alike Carry s s') (target : Word) : Alike Carry (setPc target s) (setPc target s') :=
  ⟨h.regs, h.z, h.carry, h.mem, h.status, fun _ => rfl⟩

theorem Alike.setZ (h : Alike Carry s s') (b : Bool) : Alike Carry (setZ b s) (setZ b s') :=
  ⟨h.regs, rfl, h.carry, h.mem, h.status, h.pc⟩

theorem Alike.writeReg (h : Alike Carry s s') (r : RegIx) (v : Word) :
    Alike Carry (writeReg r v s) (writeReg r v s') :=
  ⟨congrArg (·.set r v) h.regs, h.z, h.carry, h.mem, h.status, h.pc⟩

theorem Alike.writeResult (h : Alike Carry s s') (r : RegIx) (v : Word) :
    Alike Carry (writeResult r v s) (writeResult r v s') :=
  (h.writeReg r v).setZ _

theorem Alike.storeWord (h : Alike Carry s s') (a : Nat) (v : Word) :
    Alike Carry (storeWord a v s) (storeWord a v s') :=
  ⟨h.regs, h.z, h.carry, congrArg (writeWord · a v) h.mem, h.status, h.pc⟩

theorem Alike.haltMachine (h : Alike Carry s s') : Alike Carry (haltMachine s) (haltMachine s') :=
  ⟨h.regs, h.z, h.carry, h.mem, rfl, nofun⟩

theorem Alike.enterFaulted (h : Alike Carry s s') (k : FaultKind) :
    Alike Carry (enterFaulted k s) (enterFaulted k s') :=
  ⟨h.regs, h.z, h.carry, h.mem, rfl, nofun⟩

/-- A fault that both machines raise leaves them alike, whether or not it is one of the spec's. -/
theorem Alike.stateAfter_fault (h : Alike Carry s s') (f : Fault) :
    Alike Carry (stateAfter s (.fault f)) (stateAfter s' (.fault f)) := by
  cases hk : f.kind with
  | none => simpa only [stateAfter, hk] using h
  | some k => simpa only [stateAfter, hk] using h.enterFaulted k

variable (hrefl : ∀ b, Carry b b)
include hrefl

theorem Alike.setC (h : Alike Carry s s') (b : Bool) : Alike Carry (setC b s) (setC b s') :=
  ⟨h.regs, h.z, hrefl b, h.mem, h.status, h.pc⟩

/-- No effect is computed from the carry: it is left as it is, or made of two registers. -/
theorem Alike.effect (h : Alike Carry s s') (i : Instr) : Alike Carry (effect i s) (effect i s') := by
  cases i with
  | movi reg imm => exact h.writeResult reg imm
  | mov dest src =>
    simp only [Machine.effect, h.readReg_eq]
    exact h.writeResult dest _
  | load reg address =>
    simp only [Machine.effect, h.mem]
    exact h.writeResult reg _
  | store address reg =>
    simp only [Machine.effect, h.readReg_eq]
    exact h.storeWord _ _
  | add dest src | sub dest src =>
    simp only [Machine.effect, h.readReg_eq]
    exact (h.writeResult dest _).setC hrefl _
  | cmp a b =>
    simp only [Machine.effect, h.readReg_eq]
    exact (h.setZ _).setC hrefl _
  | jmp | jz | jnz | halt => exact h

theorem Alike.advanced (h : Alike Carry s s') (hrun : s.status = .running) (i : Instr) :
    Alike Carry (advanced i s) (advanced i s') := by
  rw [Machine.advanced, Machine.advanced, h.pc hrun]
  exact (h.effect hrefl i).setPc _

/-- Alike running machines execute alike: they raise the same fault, or reach machines that are alike. -/
theorem Alike.exec (h : Alike Carry s s') (hrun : s.status = .running) (i : Instr) :
    (∃ f, exec i s = .fault f ∧ exec i s' = .fault f) ∨
      ∃ t t', exec i s = .next t ∧ exec i s' = .next t' ∧ Alike Carry t t' := by
  obtain hill | rfl | ⟨target, hjump⟩ | ⟨hwf, hhalt, hjump⟩ := exec_ways i s
  · exact .inl ⟨_, exec_of_not_wellFormed hill s, exec_of_not_wellFormed hill s'⟩
  · exact .inr ⟨_, _, rfl, rfl, h.haltMachine⟩
  · exact .inr ⟨_, _, exec_of_jumpTarget hjump, exec_of_jumpTarget (h.jumpTarget_eq i ▸ hjump), h.setPc target⟩
  · have hjump' : jumpTarget i s' = none := h.jumpTarget_eq i ▸ hjump
    by_cases hfit : s.pc.toNat + i.opcode.length ≤ 0xFFFF
    · exact .inr ⟨_, _, exec_eq_advanced hwf hhalt hjump hfit, exec_eq_advanced hwf hhalt hjump' (h.pc hrun ▸ hfit),
        h.advanced hrefl hrun i⟩
    · rw [exec_eq_pcWrap hwf hhalt hjump (not_le.mp hfit),
        exec_eq_pcWrap hwf hhalt hjump' (not_le.mp (h.pc hrun ▸ hfit)), h.pc hrun]
      exact .inl ⟨_, rfl, rfl⟩

theorem Alike.stateAfter_step (h : Alike Carry s s') :
    Alike Carry (stateAfter s (step s)) (stateAfter s' (step s')) := by
  by_cases hrun : s.status = .running
  · rw [step_running hrun, step_running (h.status ▸ hrun), h.fetchDecode_eq hrun]
    cases fetchDecode s' with
    | stop f => exact h.stateAfter_fault f
    | instr i =>
      obtain ⟨f, hs, hs'⟩ | ⟨t, t', hs, hs', halike⟩ := h.exec hrefl hrun i
      · simpa only [hs, hs'] using h.stateAfter_fault f
      · simpa only [hs, hs', stateAfter] using halike
  · rw [stateAfter_of_stopped hrun, stateAfter_of_stopped (h.status ▸ hrun)]
    exact h

/-- The simulation: machines alike at the start are alike after any number of steps. -/
theorem Alike.machineAfter (h : Alike Carry s s') (n : Nat) : Alike Carry (machineAfter n s) (machineAfter n s') := by
  induction n generalizing s s' with
  | zero => exact h
  | succ n ih => exact ih (h.stateAfter_step hrefl)

end

/-- Machines alike, with the same carry, show the same. -/
theorem Alike.fateShown_eq {s s' : State} (h : Alike Eq s s') : fateShown s = fateShown s' := by
  simp only [fateShown, h.status, h.regs, h.z, h.carry, h.mem]

/-- Settles O49: the number of the next free value is no part of what steers a run. -/
theorem pcAfterHaltIsNeverObserved : Obligations.PcAfterHaltIsNeverObserved := by
  intro n d s
  have hstart : Alike Eq { s with draws := d } s := ⟨rfl, rfl, rfl, rfl, rfl, fun _ => rfl⟩
  exact (hstart.machineAfter Eq.refl n).fateShown_eq

/-- Settles O50: the carry is no part of what steers a run either. -/
theorem carryNeverSteersARun : Obligations.CarryNeverSteersARun := by
  intro n b s
  have hstart : Alike (fun _ _ => True) s (setC b s) := ⟨rfl, rfl, trivial, rfl, rfl, fun _ => rfl⟩
  have hend := hstart.machineAfter (fun _ => trivial) n
  simp only [fateWithin, fateShown, ← hend.status]
  cases (machineAfter n s).status with
  | running => trivial
  | halted => exact ⟨hend.regs, hend.z, hend.mem⟩
  | faulted k => rfl

end Sys2Proof.Machine
end
